-- ==== Sys2Proof/Word.lean ====
section
/-! DEFINITION. The words of the engine (spec/00_scope.md R7, R9): all unsigned. -/

namespace Sys2Proof

/-- A byte, 8 bits (R7). -/
abbrev Byte := BitVec 8

/-- A code unit, the 16-bit value FEEDCU presents to the encoder (R7, R13). -/
abbrev CodeUnit := BitVec 16

/-- A word, 32 bits (R7). -/
abbrev Word := BitVec 32

/-- The message length counter's width, 64 bits (R7, R30). -/
abbrev Long := BitVec 64

end Sys2Proof
end

