-- ==== Sys2Proof/Config.lean ====
section
/-! DEFINITION. What the spec leaves open (spec/00_scope.md R8, spec/93_implementation_defined.md): the free values
of reads while busy, and the open parameters, which a model takes as arguments; and the input pins (spec/20_memory.md
R69), of whose levels two of the parameters speak. -/

namespace Sys2Proof

/-- The bus inputs at one edge of `clk` (R69). -/
structure BusPins where
  sel   : Bool
  we    : Bool
  addr  : BitVec 4
  wdata : Word
deriving DecidableEq, Repr

/-- The engine's input pins at one edge of `clk` (R69). -/
structure Pins where
  rst : Bool
  bus : BusPins
deriving DecidableEq, Repr

end Sys2Proof

namespace Sys2Proof.Config

/-- The word that the `n`-th drawing read returns for LEN_LO, LEN_HI or CV_A..CV_D, read at offset `off` while
BUSY = 1: "an arbitrary value of the field's width, chosen anew on each read" (R56). No body: nothing is known of
it. DESIGN CHOICE, log 5. -/
opaque freeWord : (n off : Nat) → Word

/-- The value that the `n`-th drawing read returns for STATUS.BCNT while BUSY = 1 (R37, R56). No body.
DESIGN CHOICE, log 5. -/
opaque freeBcnt : (n : Nat) → BitVec 6

/-- T_ABSORB, T_ROUND, T_FF and T_LATCH: the clocks one micro-step of each kind takes (R8, R272). -/
structure Timing where
  tAbsorb : Nat
  tRound  : Nat
  tFf     : Nat
  tLatch  : Nat
deriving DecidableEq, Repr

/-- "Each is at least 1" (R8). -/
abbrev Timing.wf (t : Timing) : Prop := 1 ≤ t.tAbsorb ∧ 1 ≤ t.tRound ∧ 1 ≤ t.tFf ∧ 1 ≤ t.tLatch

/-- The level of `rst` that asserts reset: the polarity of RST_POLARITY (R8, R69). -/
inductive Polarity where
  | activeHigh
  | activeLow
deriving DecidableEq, Repr

/-- RST_POLARITY: "Reset polarity and synchronisation" (R260). `sync` says whether reset is in force, from whether `rst`
was asserted at each edge of `clk` so far, the present edge first. The form of the parameter is a DESIGN CHOICE, log 10. -/
structure ResetSignal where
  polarity : Polarity
  sync     : List Bool → Bool

/-- BUS_PROTOCOL, "the handshake timing of these signals" (R69): whether the access that the pins ask for completes at
the present edge of `clk`, from the pins at each edge so far, the present edge first. The form of the parameter is a
DESIGN CHOICE, log 14. -/
structure BusProtocol where
  completes : List Pins → Bool

/-- The signal-level parameters, RST_POLARITY and BUS_PROTOCOL (R8). -/
structure Signals where
  reset : ResetSignal
  bus   : BusProtocol

/-- `MD5_BASE` "must be a multiple of 64" (R51). -/
abbrev baseWf (base : Nat) : Prop := base % 64 = 0

end Sys2Proof.Config
end

