-- ==== Sys2Proof/Syntax.lean ====
section
/-! DEFINITION. What the host can say to the engine: the five commands, the sixteen registers, the bus operations,
and the notation of host programs (spec/10_state.md R35, spec/30_encoding.md R80-R90). -/

namespace Sys2Proof

/-- The commands, one constructor per row of spec/opcode_table.json (R83). -/
inductive Instr where
  | nop                    -- R101
  | init                   -- R102
  | feedcu (u : CodeUnit)  -- R103
  | feedb (b : Byte)       -- R104
  | final                  -- R105
deriving DecidableEq, Repr

/-- Why a CMD word is rejected: the InvalidArgument codes of R232 (0 is "no rejection", 5..15 are never recorded). -/
inductive InvalidArgument where
  | busy
  | illegalOpcode
  | reservedBits
  | phase
deriving DecidableEq, Repr

/-- What a word decodes to (R84). -/
inductive Decoded where
  | command (i : Instr)
  | reject (c : InvalidArgument)
deriving DecidableEq, Repr

/-- The registers of the window (R35), the two reserved words among them (R43). -/
inductive Reg where
  | cmd | status | errinfo | errcmd
  | lenLo | lenHi | reserved18 | reserved1C
  | digest0 | digest1 | digest2 | digest3
  | cvA | cvB | cvC | cvD
deriving DecidableEq, Repr

/-- The name of a host variable (R89). -/
abbrev VarName := List Char

/-- The variables of READDIGEST and DIGEST, for DIGEST0..DIGEST3 (R90). -/
structure DigestVars where
  d0 : VarName
  d1 : VarName
  d2 : VarName
  d3 : VarName
deriving DecidableEq, Repr

/-- One operation of the host: `MemRead(off, width)`, `MemWrite(off, width, v)` (R11), or WAIT, the poll of STATUS
until BUSY = 0 (R90). `width` is in bytes; the engine defines width 4 only (R52). `dst` is the host variable that a read
assigns, as in `name = MemRead(off, 4)` (R89), if it assigns one. -/
inductive HostOp where
  | read (off width : Nat) (dst : Option VarName)
  | write (off width : Nat) (v : Word)
  | wait
deriving DecidableEq, Repr

/-- Which agent moves next in the total order of transitions (R20, R62): the host, the engine, or the `rst` input,
whose event may come at any time (R240, R260). -/
inductive Turn where
  | host
  | engine
  | reset
deriving DecidableEq, Repr

/-- A host program in the notation of R89 and R90. Operands are the numbers a programmer writes; the assembler
rejects those that do not fit (WellFormed.lean). `skip` and `seq` are the empty program and one line after another. -/
inductive Asm where
  | skip
  | seq (p q : Asm)
  | nop
  | init
  | feedcu (u : Nat)
  | feedb (b : Nat)
  | final
  | cmd (w : Nat)
  | wr (off v : Nat)
  | rd (off : Nat) (name : VarName)
  | wait
  | clrerr
  | feedstr (text : List Char)
  | feedbytes (bs : List Nat)
  | readdigest (d : DigestVars)
  | rep (n : Nat) (body : Asm)
  | digest (text : List Char) (d : DigestVars)
deriving DecidableEq, Repr

end Sys2Proof
end

