-- ==== Sys2Proof/WellFormed.lean ====
section
/-! DEFINITION. Which terms of Syntax.lean stand for something the spec defines: the operand ranges an assembler
checks (spec/30_encoding.md R89) and the accesses the engine defines (spec/20_memory.md R50-R52). -/

namespace Sys2Proof

/-- A command of `Instr` is always well formed: its operand fields have exactly the widths of R82, and "all values"
of them are valid. The checks on wider operands stand in `Asm.wf`, those on words in `decode`. -/
def Instr.wf : Instr → Bool
  | .nop => true
  | .init => true
  | .feedcu _ => true
  | .feedb _ => true
  | .final => true

/-- "Every host access is a 32-bit access at an offset that is a multiple of 4" (R52). -/
def aligned (off width : Nat) : Bool := width == 4 && off % 4 == 0

/-- The window is the 64 bytes at offsets 0x00 to 0x3F (R51). -/
def inWindow (off : Nat) : Bool := off < 64

/-- The host operations the engine defines (R52, R60). -/
def HostOp.wf : HostOp → Bool
  | .read off width _ => aligned off width && inWindow off
  | .write off width _ => aligned off width && inWindow off
  | .wait => true

/-- The operand checks of the assembler: "An assembler rejects a FEEDCU operand above 0xFFFF and a FEEDB operand
above 0xFF" (R89). Words and offsets must be those of a bus access (R52, R60). -/
def Asm.wf : Asm → Bool
  | .skip => true
  | .seq p q => p.wf && q.wf
  | .nop => true
  | .init => true
  | .feedcu u => decide (u ≤ 0xFFFF)
  | .feedb b => decide (b ≤ 0xFF)
  | .final => true
  | .cmd w => decide (w < 2 ^ 32)
  | .wr off v => aligned off 4 && inWindow off && decide (v < 2 ^ 32)
  | .rd off _ => aligned off 4 && inWindow off
  | .wait => true
  | .clrerr => true
  | .feedstr _ => true
  | .feedbytes bs => bs.all (fun b => decide (b ≤ 0xFF))
  | .readdigest _ => true
  | .rep _ body => body.wf
  | .digest _ _ => true

end Sys2Proof
end

