-- ==== Sys2Proof/Decode.lean ====
section
/-! DEFINITION. Command words: the decoder of spec/30_encoding.md R84, total on every 32-bit word and rejecting by
code, the table of R83, and the encoder written from R82 and R89. -/

namespace Sys2Proof

/-- OP = w[7:0] (R81). -/
def opField (w : Word) : Byte := w.extractLsb' 0 8

/-- RSV = w[15:8] (R81). -/
def rsvField (w : Word) : Byte := w.extractLsb' 8 8

/-- OPND = w[31:16] (R81). -/
def opndField (w : Word) : CodeUnit := w.extractLsb' 16 16

/-- FEEDB's operand, w[23:16] (R82). -/
def byteField (w : Word) : Byte := w.extractLsb' 16 8

/-- w[31:24], which FEEDB requires to be 0 (R82). -/
def topField (w : Word) : Byte := w.extractLsb' 24 8

/-- `Decode(w)` (R84). It does not look at the engine's state. -/
def decode (w : Word) : Decoded :=
  if 0x04#8 < opField w then .reject .illegalOpcode
  else if rsvField w ≠ 0#8 then .reject .reservedBits
  else if opField w = 0x02#8 then .command (.feedcu (opndField w))
  else if opField w = 0x03#8 then
    if topField w ≠ 0#8 then .reject .reservedBits else .command (.feedb (byteField w))
  else if opndField w ≠ 0#16 then .reject .reservedBits
  else if opField w = 0x00#8 then .command .nop
  else if opField w = 0x01#8 then .command .init
  else .command .final

/-- The word of a command, as the encoding column of R89 writes it (fields of R81, R82). -/
def encode : Instr → Word
  | .nop => 0x00000000#32
  | .init => 0x00000001#32
  | .feedcu u => (u.setWidth 32 <<< 16) ||| 0x02#32
  | .feedb b => (b.setWidth 32 <<< 16) ||| 0x03#32
  | .final => 0x00000004#32

/-- The match and mask columns of R83. -/
def Instr.pattern : Instr → Word × Word
  | .nop => (0x00000000#32, 0xFFFFFFFF#32)
  | .init => (0x00000001#32, 0xFFFFFFFF#32)
  | .feedcu _ => (0x00000002#32, 0x0000FFFF#32)
  | .feedb _ => (0x00000003#32, 0xFF00FFFF#32)
  | .final => (0x00000004#32, 0xFFFFFFFF#32)

/-- "A word w is the command in a row exactly when `(w & mask) = match`" (R83), the row being that of `i`. -/
def inRow (i : Instr) (w : Word) : Bool := w &&& i.pattern.2 == i.pattern.1

/-- The instruction the decoder reads from a table row's word: the low `nbits` bits of `w`, the bits above them 0;
a command is always one 32-bit word (R80, R88), so the word the host writes to CMD is the number itself. -/
def decodeTableWord (nbits w : Nat) : Option Instr :=
  if nbits ≤ 32 then
    match decode (BitVec.ofNat 32 (w % 2 ^ nbits)) with
    | .command i => some i
    | .reject _ => none
  else none

/-- The offset of a register (R35). -/
def Reg.offset : Reg → Nat
  | .cmd => 0x00
  | .status => 0x04
  | .errinfo => 0x08
  | .errcmd => 0x0C
  | .lenLo => 0x10
  | .lenHi => 0x14
  | .reserved18 => 0x18
  | .reserved1C => 0x1C
  | .digest0 => 0x20
  | .digest1 => 0x24
  | .digest2 => 0x28
  | .digest3 => 0x2C
  | .cvA => 0x30
  | .cvB => 0x34
  | .cvC => 0x38
  | .cvD => 0x3C

/-- The registers in the order of their offsets: entry k stands at offset 4k (R35). -/
def Reg.all : List Reg :=
  [.cmd, .status, .errinfo, .errcmd, .lenLo, .lenHi, .reserved18, .reserved1C,
   .digest0, .digest1, .digest2, .digest3, .cvA, .cvB, .cvC, .cvD]

/-- The register the engine selects: bits [5:2] of the address (R51). -/
def regAt (sel : BitVec 4) : Reg := Reg.all.getD sel.toNat .cmd

/-- The register at an offset of the window (R35, R51). -/
def regOf (off : Nat) : Reg := regAt (BitVec.ofNat 4 (off / 4))

end Sys2Proof
end

