-- ==== Sys2Proof/Machine/State.lean ====
section
/-! DEFINITION. The state (spec/10_state.md): the engine's elements R21-R32, and the other two agents' part, the
host's operations to come and the order of turns (R20, R62). Its value after reset (R46). -/

namespace Sys2Proof.Machine

/-- Four words: A..D, AA..DD or DIGEST[0..3]. -/
structure Quad where
  a : Word
  b : Word
  c : Word
  d : Word
deriving DecidableEq, Repr

/-- `phase` (R21); the value 3 is never produced. -/
inductive Phase where
  | idle
  | active
  | done
deriving DecidableEq, Repr

/-- `seq`, the sequencer position (R27). -/
inductive Seq where
  | sidle
  | round (i : Fin 64)
  | ff
deriving DecidableEq, Repr

/-- An entry of the byte queue (R28). -/
structure QEntry where
  byte    : Byte
  counted : Bool
deriving DecidableEq, Repr

/-- The engine's state, R21-R32. BUSY is derived (R34) and the ROM is constant (R33), so neither is a field. -/
structure Engine where
  /-- R21 -/
  phase    : Phase
  /-- A, B, C, D (R22) -/
  cv       : Quad
  /-- AA, BB, CC, DD (R23) -/
  save     : Quad
  /-- X[0..15] (R25) -/
  x        : Vector Word 16
  /-- 0..64 (R26) -/
  bcnt     : Nat
  /-- R27 -/
  seq      : Seq
  /-- Q, head first (R28) -/
  queue    : List QEntry
  /-- R29 -/
  fin      : Bool
  /-- LEN, in bits (R30) -/
  len      : Long
  /-- DIGEST[0..3] (R31) -/
  digest   : Quad
  /-- err_valid (R32) -/
  errValid : Bool
  /-- err_ovf (R32) -/
  errOvf   : Bool
  /-- err_code (R32, R232) -/
  errCode  : BitVec 4
  /-- err_cmd (R32) -/
  errCmd   : Word
deriving DecidableEq, Repr

/-- The value a read of the host returned, and the offset it read (R54). -/
structure HostRead where
  off   : Nat
  value : Word
deriving DecidableEq, Repr

/-- A host variable and its value (R89). -/
structure HostVar where
  name  : VarName
  value : Word
deriving DecidableEq, Repr

/-- The whole machine: the engine, and what the host and the reset input will still do. `pending`, `turns`, `reads`,
`vars` and `draws` are the model's own fields (logs 1, 3, 4, 5). -/
structure State where
  eng     : Engine
  /-- the host's operations still to come, in its program order (R62) -/
  pending : List HostOp
  /-- the order of the coming turns, next first (R62); when it is empty the engine moves while BUSY = 1, else the
  host (log 1) -/
  turns   : List Turn
  /-- what the host's reads have returned, oldest first -/
  reads   : List HostRead
  /-- the host's variables that have a value, each once (R89) -/
  vars    : List HostVar
  /-- how many reads have drawn a free value (R56) -/
  draws   : Nat
deriving DecidableEq, Repr

/-- The reasons for a machine fault. There are none: "The data path raises nothing" (R230), "no trap exists"
(R242); a rejected command word is a next state with an error record (R234). Safe: log 18. -/
inductive Fault where
deriving DecidableEq, Repr

/-- The reasons a step is refused. -/
inductive Refusal where
  /-- An instruction that has no meaning in this model yet; raised by an arm of `exec` only. Safe. -/
  | notModelled (mnemonic : String)
  /-- A byte, halfword or misaligned access; raised by the host's turn. "A model refuses such an access: it has no
  step" (R52, B2). Safe. -/
  | undefinedAccess
  /-- An access outside the 64-byte window; raised by the host's turn. "refuse: outside this spec (platform)"
  (R60, B3). Safe. -/
  | outsideWindow
deriving DecidableEq, Repr

/-- Four zero words. -/
def Quad.zero : Quad := ⟨0, 0, 0, 0⟩

/-- The engine after reset (R46). -/
def Engine.reset : Engine where
  phase := .idle
  cv := .zero
  save := .zero
  x := Vector.replicate 16 0
  bcnt := 0
  seq := .sidle
  queue := []
  fin := false
  len := 0
  digest := .zero
  errValid := false
  errOvf := false
  errCode := 0
  errCmd := 0

/-- The machine right after reset: the engine as R46 says; no host program, no scripted turn, nothing read, no variable
assigned, no value drawn (DESIGN CHOICE, logs 1, 3, 4, 5: these are the model's own fields). -/
def State.reset : State where
  eng := .reset
  pending := []
  turns := []
  reads := []
  vars := []
  draws := 0

end Sys2Proof.Machine
end

