-- ==== Sys2Proof/Machine/Rom.lean ====
section
/-! DEFINITION. The constants ROM (spec/10_state.md R33; spec/43_compression.md R171, R173-R176): fixed contents
that nothing writes, so definitions and not fields of State (log 7). -/

namespace Sys2Proof.Machine

/-- IV[0..3] (R171). -/
def iv : Quad := ⟨0x67452301, 0xEFCDAB89, 0x98BADCFE, 0x10325476⟩

/-- T[0..15] (R173). -/
def romT1 : List Word :=
  [0xD76AA478, 0xE8C7B756, 0x242070DB, 0xC1BDCEEE, 0xF57C0FAF, 0x4787C62A, 0xA8304613, 0xFD469501,
   0x698098D8, 0x8B44F7AF, 0xFFFF5BB1, 0x895CD7BE, 0x6B901122, 0xFD987193, 0xA679438E, 0x49B40821]

/-- T[16..31] (R173). -/
def romT2 : List Word :=
  [0xF61E2562, 0xC040B340, 0x265E5A51, 0xE9B6C7AA, 0xD62F105D, 0x02441453, 0xD8A1E681, 0xE7D3FBC8,
   0x21E1CDE6, 0xC33707D6, 0xF4D50D87, 0x455A14ED, 0xA9E3E905, 0xFCEFA3F8, 0x676F02D9, 0x8D2A4C8A]

/-- T[32..47] (R173). -/
def romT3 : List Word :=
  [0xFFFA3942, 0x8771F681, 0x6D9D6122, 0xFDE5380C, 0xA4BEEA44, 0x4BDECFA9, 0xF6BB4B60, 0xBEBFBC70,
   0x289B7EC6, 0xEAA127FA, 0xD4EF3085, 0x04881D05, 0xD9D4D039, 0xE6DB99E5, 0x1FA27CF8, 0xC4AC5665]

/-- T[48..63] (R173). -/
def romT4 : List Word :=
  [0xF4292244, 0x432AFF97, 0xAB9423A7, 0xFC93A039, 0x655B59C3, 0x8F0CCC92, 0xFFEFF47D, 0x85845DD1,
   0x6FA87E4F, 0xFE2CE6E0, 0xA3014314, 0x4E0811A1, 0xF7537E82, 0xBD3AF235, 0x2AD7D2BB, 0xEB86D391]

/-- T[i] (R173). -/
def romT (i : Fin 64) : Word := (romT1 ++ romT2 ++ romT3 ++ romT4).getD i 0

/-- The four shift amounts of a round, counted from 0 (R174). -/
def roundShifts (r : Nat) : List Nat :=
  match r with
  | 0 => [7, 12, 17, 22]
  | 1 => [5, 9, 14, 20]
  | 2 => [4, 11, 16, 23]
  | _ => [6, 10, 15, 21]

/-- `S[i] = R[i div 16][i mod 4]` (R174). -/
def romS (i : Fin 64) : Nat := (roundShifts (i / 16)).getD (i % 4) 0

/-- K[i], the message word of operation i (R175). -/
def romK (i : Fin 64) : Fin 16 :=
  match i.val / 16 with
  | 0 => Fin.ofNat 16 i
  | 1 => Fin.ofNat 16 (5 * i + 1)
  | 2 => Fin.ofNat 16 (3 * i + 5)
  | _ => Fin.ofNat 16 (7 * i)

end Sys2Proof.Machine
end

