-- ==== Sys2Proof/Machine/Operands.lean ====
section
/-! DEFINITION. Operand forms and word operators: rotation and the round functions (spec/00_scope.md R10,
spec/43_compression.md R172), byte order (R11, R138), the UTF-8 encoder (spec/41_byte_preparation.md R131) and the
padding sequence (spec/42_padding.md R152, R153). -/

namespace Sys2Proof.Machine

/-- `rotl(a, s)` for 1 <= s <= 31 (R10): both shifts are logical. -/
def rotl (a : Word) (s : Nat) : Word := (a <<< s) ||| (a >>> (32 - s))

/-- Round 1 (R172). -/
def fnF (x y z : Word) : Word := (x &&& y) ||| (~~~x &&& z)

/-- Round 2 (R172). -/
def fnG (x y z : Word) : Word := (x &&& z) ||| (y &&& ~~~z)

/-- Round 3 (R172). -/
def fnH (x y z : Word) : Word := x ^^^ y ^^^ z

/-- Round 4 (R172). -/
def fnI (x y z : Word) : Word := y ^^^ (x ||| ~~~z)

/-- Fn(i): F, G, H, I for i div 16 = 0, 1, 2, 3 (R177). -/
def roundFn (i : Fin 64) : Word → Word → Word → Word :=
  match i.val / 16 with
  | 0 => fnF
  | 1 => fnG
  | 2 => fnH
  | _ => fnI

/-- Addition of the four words, each modulo 2^32 (R179). -/
def Quad.add (p q : Quad) : Quad := ⟨p.a + q.a, p.b + q.b, p.c + q.c, p.d + q.d⟩

/-- Byte `j` of a word, bits [8j+7 : 8j] (R138, R212); of a bus word, the byte at offset +j (R53). -/
def byteOf (w : Word) (j : Nat) : Byte := w.extractLsb' (8 * j) 8

/-- `w` with byte `j` replaced (R138). -/
def setByteOf (w : Word) (j : Nat) (b : Byte) : Word :=
  (w &&& ~~~(0xFF#32 <<< (8 * j))) ||| (b.setWidth 32 <<< (8 * j))

/-- `X[p >> 2][8*(p mod 4)+7 : 8*(p mod 4)] <- b` (R137, R138), for 0 <= p <= 63. A larger p names no byte of X and
changes nothing; it occurs in no state that meets the invariant (log 8). -/
def putByte (x : Vector Word 16) (p : Nat) (b : Byte) : Vector Word 16 :=
  if h : p / 4 < 16 then x.set (p / 4) (setByteOf x[p / 4] (p % 4) b) h else x

/-- The field `v` with its bit 0 at bit `lo` of a word whose other bits are 0 (R9). -/
def place {n : Nat} (lo : Nat) (v : BitVec n) : Word := v.setWidth 32 <<< lo

/-- The word `{b3, b2, b1, b0}` (R9, R138). -/
def wordOfBytes (b0 b1 b2 b3 : Byte) : Word := place 0 b0 ||| place 8 b1 ||| place 16 b2 ||| place 24 b3

/-- `le32(w)`, least significant byte first (R11). -/
def le32 (w : Word) : List Byte := [byteOf w 0, byteOf w 1, byteOf w 2, byteOf w 3]

/-- `le64(v)` (R11, R153): the low word's bytes, then the high word's. -/
def le64 (v : Long) : List Byte := le32 (v.extractLsb' 0 32) ++ le32 (v.extractLsb' 32 32)

/-- `Utf8Bytes(u)` (R131), in the order the bytes enter Q. -/
def utf8Bytes (u : CodeUnit) : List Byte :=
  if u ≤ 0x007F#16 then [u.extractLsb' 0 8]
  else if u ≤ 0x07FF#16 then
    [0xC0#8 ||| (u.extractLsb' 6 5).setWidth 8, 0x80#8 ||| (u.extractLsb' 0 6).setWidth 8]
  else
    [0xE0#8 ||| (u.extractLsb' 12 4).setWidth 8, 0x80#8 ||| (u.extractLsb' 6 6).setWidth 8,
     0x80#8 ||| (u.extractLsb' 0 6).setWidth 8]

/-- `z = (55 - bcnt) mod 64`, "taking the result in 0..63" (R152): computed on the integers. -/
def padZeros (bcnt : Nat) : Nat := ((55 - (bcnt : Int)) % 64).toNat

/-- `PadBytes(z, L) = [0x80] ++ [0x00] * z ++ le64(L)` (R153). -/
def padBytes (z : Nat) (l : Long) : List Byte := [0x80#8] ++ List.replicate z 0x00#8 ++ le64 l

/-- Queue entries of message bytes (R103, R104). -/
def countedEntries (bs : List Byte) : List QEntry := bs.map (fun b => ⟨b, true⟩)

/-- Queue entries of padding bytes (R105, R153). -/
def paddingEntries (bs : List Byte) : List QEntry := bs.map (fun b => ⟨b, false⟩)

end Sys2Proof.Machine
end

