-- ==== Sys2Proof/Machine/Flags.lean ====
section
/-! DEFINITION. The flags: BUSY (spec/10_state.md R34), and the STATUS and ERRINFO words composed from the state
(R37, R38, R44); the phase and rejection codes on the bus (R21, R232). -/

namespace Sys2Proof.Machine

/-- `BUSY = (seq != SIDLE) or (Q != []) or fin` (R34). -/
def Engine.busy (e : Engine) : Bool := decide (e.seq ≠ .sidle) || !e.queue.isEmpty || e.fin

/-- PHASE on the bus: 0 IDLE, 1 ACTIVE, 2 DONE (R21, R37). -/
def Phase.code : Phase → BitVec 2
  | .idle => 0
  | .active => 1
  | .done => 2

/-- The InvalidArgument codes (R232). -/
def codeOf : InvalidArgument → BitVec 4
  | .busy => 1
  | .illegalOpcode => 2
  | .reservedBits => 3
  | .phase => 4

/-- `bcnt mod 64`, the field STATUS.BCNT when it is exact (R26, R37). -/
def Engine.bcntField (e : Engine) : BitVec 6 := BitVec.ofNat 6 (e.bcnt % 64)

/-- STATUS (R37): BUSY, PHASE, ERR, the given BCNT field, and the reserved bits 0. -/
def statusWord (e : Engine) (bcnt : BitVec 6) : Word :=
  place 0 (BitVec.ofBool e.busy) ||| place 1 e.phase.code ||| place 3 (BitVec.ofBool e.errValid) ||| place 8 bcnt

/-- ERRINFO (R38): VALID, OVF, CODE, and the reserved bits 0. -/
def errinfoWord (e : Engine) : Word :=
  place 0 (BitVec.ofBool e.errValid) ||| place 1 (BitVec.ofBool e.errOvf) ||| place 4 e.errCode

end Sys2Proof.Machine
end

