-- ==== Sys2Proof/Machine/Ops.lean ====
section
/-! DEFINITION. The shared operations: recording a rejection (the engine's whole exception mechanism,
spec/60_exceptions.md R231-R234) and clearing the record (R106, R237), queueing bytes (R136), the register window's
reads and writes (spec/20_memory.md R54-R56), and reset (R260). -/

namespace Sys2Proof.Machine

/-! ### Taking and clearing a rejection -/

/-- `RecordError(code, w)` (R234): the first record is kept. This is all a rejection saves; nothing else changes
(R235). -/
def Engine.recordError (c : InvalidArgument) (w : Word) (e : Engine) : Engine :=
  if e.errValid then { e with errOvf := true }
  else { e with errValid := true, errCode := codeOf c, errCmd := w }

/-- The clear of the whole error record (R38, R106, R237). -/
def Engine.clearErrors (e : Engine) : Engine :=
  { e with errValid := false, errOvf := false, errCode := 0, errCmd := 0 }

/-! ### The boundary check of a command -/

/-- The commands that need phase ACTIVE (R231). -/
def needsActive : Instr → Bool
  | .nop => false
  | .init => false
  | .feedcu _ => true
  | .feedb _ => true
  | .final => true

/-- The state checks of `Check` (R231) for a word that decodes to `i`: BUSY first, then PHASE (R233). -/
def rejection (i : Instr) (e : Engine) : Option InvalidArgument :=
  if e.busy then some .busy
  else if needsActive i && decide (e.phase ≠ .active) then some .phase
  else none

/-- A submitted command (R100): if the check rejects it, the rejection is recorded with the command's word and
nothing else happens; otherwise `effect`, the command's pseudocode, is executed. A command has one word (log 11). -/
def Engine.issue (i : Instr) (effect : Engine → Engine) (e : Engine) : Engine :=
  match rejection i e with
  | some c => e.recordError c (encode i)
  | none => effect e

/-- `Engine.issue` as a transition of the machine: one atomic step (R12, R57). -/
def issue (i : Instr) (effect : Engine → Engine) (s : State) : Host.Outcome State Fault Refusal :=
  .next { s with eng := s.eng.issue i effect }

/-! ### The byte queue -/

/-- `Q.append(list)`, to the tail (R11, R136). -/
def Engine.enqueue (qs : List QEntry) (e : Engine) : Engine := { e with queue := e.queue ++ qs }

/-! ### The register window -/

/-- The registers whose value is arbitrary while BUSY = 1: "STATUS.BCNT; LEN_LO and LEN_HI; CV_A, CV_B, CV_C and
CV_D" (R56). -/
def isProgress : Reg → Bool
  | .status => true
  | .lenLo => true
  | .lenHi => true
  | .cvA => true
  | .cvB => true
  | .cvC => true
  | .cvD => true
  | .cmd => false
  | .errinfo => false
  | .errcmd => false
  | .reserved18 => false
  | .reserved1C => false
  | .digest0 => false
  | .digest1 => false
  | .digest2 => false
  | .digest3 => false

/-- The exact value of a register, as R36-R43 define it (what a read returns when BUSY = 0). -/
def Engine.regValue (e : Engine) : Reg → Word
  | .cmd => 0
  | .status => statusWord e e.bcntField
  | .errinfo => errinfoWord e
  | .errcmd => e.errCmd
  | .lenLo => e.len.extractLsb' 0 32
  | .lenHi => e.len.extractLsb' 32 32
  | .reserved18 => 0
  | .reserved1C => 0
  | .digest0 => e.digest.a
  | .digest1 => e.digest.b
  | .digest2 => e.digest.c
  | .digest3 => e.digest.d
  | .cvA => e.cv.a
  | .cvB => e.cv.b
  | .cvC => e.cv.c
  | .cvD => e.cv.d

/-- Does a read of `r` draw a free value (R56)? -/
def Engine.draws (e : Engine) (r : Reg) : Bool := e.busy && isProgress r

/-- The value a read of `r` returns, the `n`-th draw being taken where one is needed: STATUS is exact but for its
BCNT field, the other progress registers are free whole (R56, R107). That two machines, instances of one system among
them, with equal `n` and equal offset read equal free values is the model's own (DESIGN CHOICE, log 5). -/
def Engine.readValue (e : Engine) (n : Nat) (r : Reg) : Word :=
  if e.draws r then
    if r = .status then statusWord e (Config.freeBcnt n) else Config.freeWord n r.offset
  else e.regValue r

/-- `MemRead` of the register `r` (R54, R107): the value, and the state, in which only the model's draw counter
moves. -/
def readReg (r : Reg) (s : State) : Word × State :=
  (s.eng.readValue s.draws r, if s.eng.draws r then { s with draws := s.draws + 1 } else s)

/-- `WriteErrinfo(v)` (R106). -/
def Engine.writeErrinfo (v : Word) (e : Engine) : Engine := if v.getLsbD 0 then e.clearErrors else e

/-! ### Reset -/

/-- The reset event (R260): every element of the engine at its value of R46, in one transition. What the host has
still to do, and what it has read, is not the engine's (log 10). -/
def resetEvent (s : State) : State := { s with eng := .reset }

end Sys2Proof.Machine
end

