-- ==== Sys2Proof/Machine/Control.lean ====
section
/-! DEFINITION. The meanings of NOP, INIT and FINAL (spec/40_commands.md R101, R102, R105). -/

namespace Sys2Proof.Machine

/-- NOP (R101): `skip`. -/
def execNop (s : State) : Host.Outcome State Fault Refusal := issue .nop (fun e => e) s

/-- `Execute(INIT)` (R102). DIGEST, AA..DD and the error record are not changed; Q, `seq` and `fin` are already
empty, SIDLE and 0, because INIT is accepted only when BUSY = 0. -/
def Engine.startContext (e : Engine) : Engine :=
  { e with cv := iv, len := 0, bcnt := 0, x := Vector.replicate 16 0, phase := .active }

/-- INIT (R102). -/
def execInit (s : State) : Host.Outcome State Fault Refusal := issue .init Engine.startContext s

/-- `Execute(FINAL)` (R105, R151-R153): the padding of the length captured now enters Q, and the latch is due. -/
def Engine.finish (e : Engine) : Engine :=
  { e.enqueue (paddingEntries (padBytes (padZeros e.bcnt) e.len)) with fin := true }

/-- FINAL (R105). -/
def execFinal (s : State) : Host.Outcome State Fault Refusal := issue .final Engine.finish s

end Sys2Proof.Machine
end

