-- ==== Sys2Proof/Machine/Feed.lean ====
section
/-! DEFINITION. The meanings of FEEDCU and FEEDB (spec/40_commands.md R103, R104). -/

namespace Sys2Proof.Machine

/-- FEEDCU (R103): the code unit's UTF-8 bytes enter Q as message bytes. -/
def execFeedcu (u : CodeUnit) (s : State) : Host.Outcome State Fault Refusal :=
  issue (.feedcu u) (Engine.enqueue (countedEntries (utf8Bytes u))) s

/-- FEEDB (R104): one raw byte enters Q as a message byte. -/
def execFeedb (b : Byte) (s : State) : Host.Outcome State Fault Refusal :=
  issue (.feedb b) (Engine.enqueue (countedEntries [b])) s

end Sys2Proof.Machine
end

