-- ==== Sys2Proof/Machine/Dispatch.lean ====
section
/-! DEFINITION. One arm per command (spec/30_encoding.md R83): the effect of writing the command's word to CMD. -/

namespace Sys2Proof.Machine

def exec (i : Instr) (s : State) : Host.Outcome State Fault Refusal :=
  match i with
  | .nop => Sys2Proof.Machine.execNop s
  | .init => Sys2Proof.Machine.execInit s
  | .feedcu u => Sys2Proof.Machine.execFeedcu u s
  | .feedb b => Sys2Proof.Machine.execFeedb b s
  | .final => Sys2Proof.Machine.execFinal s

end Sys2Proof.Machine
end

