-- ==== Sys2Proof/Machine/Access.lean ====
section
/-! DEFINITION. The host's turn: CMD writes (spec/40_commands.md R100), the other accesses of the window
(spec/20_memory.md R52, R54, R55), and WAIT (spec/30_encoding.md R90). -/

namespace Sys2Proof.Machine

/-- A word that decodes to no command: it is rejected with BUSY while BUSY = 1, else with the decoder's code
(R231, R233), and recorded (R234). -/
def rejectWord (c : InvalidArgument) (w : Word) (s : State) : Host.Outcome State Fault Refusal :=
  .next { s with eng := s.eng.recordError (if s.eng.busy then .busy else c) w }

/-- `Submit(w)` (R100): one atomic transition. The state checks of a word that is a command stand in `exec`. -/
def submit (w : Word) (s : State) : Host.Outcome State Fault Refusal :=
  match decode w with
  | .command i => exec i s
  | .reject c => rejectWord c w s

/-- `MemWrite` of a register (R55): CMD submits, ERRINFO clears, every other write has no effect. -/
def writeReg (r : Reg) (v : Word) (s : State) : Host.Outcome State Fault Refusal :=
  match r with
  | .cmd => submit v s
  | .errinfo => .next { s with eng := s.eng.writeErrinfo v }
  | .status => .next s
  | .errcmd => .next s
  | .lenLo => .next s
  | .lenHi => .next s
  | .reserved18 => .next s
  | .reserved1C => .next s
  | .digest0 => .next s
  | .digest1 => .next s
  | .digest2 => .next s
  | .digest3 => .next s
  | .cvA => .next s
  | .cvB => .next s
  | .cvC => .next s
  | .cvD => .next s

/-- An access of `width` bytes at `off`, to the register it selects: refused where the engine defines no meaning for
it (R52, B2) and outside the window (R60, B3; log 6). -/
def access (off width : Nat) (act : Reg → Host.Outcome State Fault Refusal) : Host.Outcome State Fault Refusal :=
  if inWindow off then
    if aligned off width then act (regOf off) else .refused .undefinedAccess
  else .refused .outsideWindow

/-! ### The host's variables (R89) -/

/-- Each variable has one value. -/
abbrev varsWf (vs : List HostVar) : Prop := (vs.map HostVar.name).Nodup

/-- The value of a variable, if it has been assigned one. -/
def varValue (x : VarName) (vs : List HostVar) : Option Word :=
  (vs.find? (fun p => p.name == x)).map HostVar.value

/-- `name = v` (R89), or nothing where no variable receives the value. -/
def assign (dst : Option VarName) (v : Word) (vs : List HostVar) : List HostVar :=
  match dst with
  | none => vs
  | some x => vs.filter (fun p => !(p.name == x)) ++ [⟨x, v⟩]

/-- `name = MemRead(off, 4)` (R54, R89): the value is kept in the list of reads, and in the variable if there is one. -/
def readOp (off : Nat) (dst : Option VarName) (r : Reg) (s : State) : State :=
  let p := readReg r s
  { p.2 with reads := p.2.reads ++ [⟨off, p.1⟩], vars := assign dst p.1 p.2.vars }

/-- The variable of WAIT's loop, `RD STATUS -> s` (R90). -/
def pollVar : VarName := ['s']

/-- One poll of WAIT (R90): STATUS is read into `s`; while its bit 0 is 1 the host stays at the WAIT that `rest`
follows, otherwise it goes on. That a poll stands in no list of reads is log 20. -/
def pollOp (rest : List HostOp) (s : State) : State :=
  let p := readReg .status s
  { p.2 with
    vars := assign (some pollVar) p.1 p.2.vars
    pending := if p.1.getLsbD 0 then .wait :: rest else rest }

/-- The turn of the host: its next operation in program order (R62). A host with nothing to do leaves the state as it
is (log 2). -/
def hostTurn (s : State) : Host.Outcome State Fault Refusal :=
  match s.pending with
  | [] => .next s
  | .read off width dst :: rest =>
    access off width (fun r => .next (readOp off dst r { s with pending := rest }))
  | .write off width v :: rest =>
    access off width (fun r => writeReg r v { s with pending := rest })
  | .wait :: rest => .next (pollOp rest s)

end Sys2Proof.Machine
end

