-- ==== Sys2Proof/Machine/Engine.lean ====
section
/-! DEFINITION. The engine's micro-steps and its step relation (spec/41_byte_preparation.md R137-R140,
spec/43_compression.md R177-R193, spec/44_digest_output.md R210). -/

namespace Sys2Proof.Machine

/-- The kinds of micro-step (R190). -/
inductive MicroStep where
  | absorb
  | round (i : Fin 64)
  | feedForward
  | latch
deriving DecidableEq, Repr

/-- `StartBlock` (R140): the pre-block values are saved and operation 0 is next. -/
def Engine.startBlock (e : Engine) : Engine := { e with save := e.cv, seq := .round 0 }

/-- The first part of `Absorb`, for a head entry `q` and a rest of the queue (R137): the byte goes to its place in X,
`bcnt` counts it, and LEN counts it if it is a message byte (R139). -/
def Engine.takeByte (q : QEntry) (rest : List QEntry) (e : Engine) : Engine :=
  { e with
    queue := rest
    x := putByte e.x e.bcnt q.byte
    bcnt := e.bcnt + 1
    len := if q.counted then e.len + 8 else e.len }

/-- `Absorb` (R137): enabled when Q is not empty, so the empty queue's line is never used. -/
def Engine.absorb (e : Engine) : Engine :=
  match e.queue with
  | [] => e
  | q :: rest => if e.bcnt + 1 = 64 then (e.takeByte q rest).startBlock else e.takeByte q rest

/-- The register movement of operation i on (A, B, C, D) and X (R177, R178). -/
def roundOp (i : Fin 64) (x : Vector Word 16) (q : Quad) : Quad :=
  let f := roundFn i q.b q.c q.d
  let t := q.a + f + romT i + x.get (romK i)
  ⟨q.d, q.b + rotl t (romS i), q.b, q.c⟩

/-- What follows ROUND(i): ROUND(i + 1) if i < 63, else FF (R27, R177). -/
def nextSeq (i : Fin 64) : Seq :=
  if h : i.val < 63 then .round ⟨i.val + 1, by omega⟩ else .ff

/-- `Round(i)` (R177). -/
def Engine.round (i : Fin 64) (e : Engine) : Engine :=
  { e with cv := roundOp i e.x e.cv, seq := nextSeq i }

/-- `FeedForward` (R179). -/
def Engine.feedForward (e : Engine) : Engine :=
  { e with cv := e.cv.add e.save, x := Vector.replicate 16 0, bcnt := 0, seq := .sidle }

/-- `Latch` (R210). -/
def Engine.latch (e : Engine) : Engine := { e with digest := e.cv, phase := .done, fin := false }

/-- What a micro-step does to the engine. -/
def MicroStep.run : MicroStep → Engine → Engine
  | .absorb => Engine.absorb
  | .round i => Engine.round i
  | .feedForward => Engine.feedForward
  | .latch => Engine.latch

/-- The micro-step that the state enables, in the order of `EngineStep` (R190). -/
def Engine.enabled (e : Engine) : Option MicroStep :=
  match e.seq with
  | .round i => some (.round i)
  | .ff => some .feedForward
  | .sidle => if e.queue ≠ [] then some .absorb else if e.fin then some .latch else none

/-- `EngineStep` (R190): none where the engine is quiescent. -/
def Engine.step (e : Engine) : Option Engine := e.enabled.map (fun m => m.run e)

/-- At most `n` micro-steps, with no host action between them; a quiescent engine stays as it is. -/
def Engine.runFor : Nat → Engine → Engine
  | 0, e => e
  | n + 1, e =>
    match e.step with
    | some e' => e'.runFor n
    | none => e

/-- The turn of the engine: its micro-step if one is enabled; a quiescent engine's turn changes nothing (R190). -/
def engineTurn (s : State) : Host.Outcome State Fault Refusal :=
  match s.eng.step with
  | some e => .next { s with eng := e }
  | none => .next s

end Sys2Proof.Machine
end

