-- ==== Sys2Proof/Machine/Step.lean ====
section
/-! DEFINITION. One transition of the machine (spec/00_scope.md R12, spec/20_memory.md R62). -/

namespace Sys2Proof.Machine

/-- The next agent in the order of turns moves (R62). With no turn scripted, the engine moves while it has a step,
then the host (log 1): so the engine's step is never left untaken forever (R273). -/
def step (s : State) : Host.Outcome State Fault Refusal :=
  match s.turns with
  | [] => if s.eng.busy then engineTurn s else hostTurn s
  | .host :: ts => hostTurn { s with turns := ts }
  | .engine :: ts => engineTurn { s with turns := ts }
  | .reset :: ts => .next (resetEvent { s with turns := ts })

/-- The table row's word, given to the machine as its next transition: the host's next operation is a write of the
word to CMD, and the host moves next. The engine fetches no instruction (R67); the host delivers it (log 3). -/
def State.withFetchWord (s : State) (nbits w : Nat) : State :=
  { s with
    pending := .write 0x00 4 (BitVec.ofNat 32 (w % 2 ^ nbits)) :: s.pending
    turns := .host :: s.turns }

end Sys2Proof.Machine
end

