-- ==== Sys2Proof/Machine/Bus.lean ====
section
/-! DEFINITION. The window on a system's bus and the engine's pins (spec/20_memory.md R51, R69; spec/00_scope.md R8).
The base address and the signal-level parameters, RST_POLARITY and BUS_PROTOCOL, are arguments. -/

namespace Sys2Proof.Machine

/-- The offset of a bus address in the window at `base` = MD5_BASE, if it lies there (R51). -/
def windowOffset (base addr : Nat) : Option Nat :=
  if base ≤ addr ∧ addr < base + 64 then some (addr - base) else none

/-- "The engine decodes the address bits [5:2]" (R51). -/
def addressSelect (addr : Word) : BitVec 4 := addr.extractLsb' 2 4

/-- The access the bus pins ask for (R69): `bus_addr` is the register offset's bits [5:2], so every access of the pins
is an aligned 32-bit one inside the window. A read of the pins names no host variable. -/
def busOp (p : BusPins) : Option HostOp :=
  if p.sel then
    some (if p.we then .write (4 * p.addr.toNat) 4 p.wdata else .read (4 * p.addr.toNat) 4 none)
  else none

/-- Is reset asserted at this level of `rst` (R69, R260)? -/
def resetAsserted (pol : Config.Polarity) (rst : Bool) : Bool :=
  match pol with
  | .activeHigh => rst
  | .activeLow => !rst

/-- Is reset in force at the present edge of `clk`, the pins at each edge so far being `seen`, the present edge first
(R260, RST_POLARITY)? -/
def resetInForce (r : Config.ResetSignal) (seen : List Pins) : Bool :=
  r.sync (seen.map fun p => resetAsserted r.polarity p.rst)

/-- The access performed at the present edge, if one is: the access the pins ask for, when the handshake completes it
(R69, BUS_PROTOCOL); "no host access or engine micro-step is performed while reset is asserted" (R260). -/
def accessAt (cfg : Config.Signals) (past : List Pins) (now : Pins) : Option HostOp :=
  if resetInForce cfg.reset (now :: past) then none
  else if cfg.bus.completes (now :: past) then busOp now.bus
  else none

/-- The output `bus_ready`, "the access is complete" (R69). What it shows while the pins ask for no access the spec does
not say, and the model gives it no value then (DESIGN CHOICE, log 14). -/
def busReady (cfg : Config.Signals) (past : List Pins) (now : Pins) : Option Bool :=
  if now.bus.sel then some (accessAt cfg past now).isSome else none

/-- The output `bus_rdata` (R69): for a read performed at this edge, the value of the register that `bus_addr` selects,
as the read of R54 returns it. What it shows at any other edge (no access, a write, an access that is not complete, a
read sampled while reset is asserted) the spec does not say, and the model gives it no value then (DESIGN CHOICE,
log 14). -/
def busRdata (cfg : Config.Signals) (past : List Pins) (now : Pins) (s : State) : Option Word :=
  if (accessAt cfg past now).isSome && !now.bus.we then some (readReg (regAt now.bus.addr) s).1 else none

/-- What the input pins at an edge of `clk` make the machine do next: reset if it is in force, otherwise the access
performed at this edge, if one is (R260, R69). -/
def State.drive (cfg : Config.Signals) (past : List Pins) (now : Pins) (s : State) : State :=
  if resetInForce cfg.reset (now :: past) then { s with turns := .reset :: s.turns }
  else
    match accessAt cfg past now with
    | some op => { s with pending := op :: s.pending, turns := .host :: s.turns }
    | none => s

end Sys2Proof.Machine
end

