-- ==== Sys2Proof/Machine/Instances.lean ====
section
/-! DEFINITION. Several engine instances (spec/60_exceptions.md R245): each is a machine of its own. -/

namespace Sys2Proof.Machine

/-- A system of instances. Instances have no identifiers of their own (R245): a place in the list is the system's. -/
abbrev System := List State

/-- One transition of instance `k`; the others share nothing with it (R245). A place with no instance has no step.
The free values of busy-time reads depend on a machine's own `draws` and not on `k`: that instances with equal `draws` read
equal ones is the model's own (DESIGN CHOICE, logs 5, 21). -/
def stepAt (k : Nat) (sys : System) : Host.Outcome System Fault Refusal :=
  match sys[k]? with
  | none => .next sys
  | some s =>
    match step s with
    | .next s' => .next (sys.set k s')
    | .fault r => .fault r
    | .refused r => .refused r

end Sys2Proof.Machine
end

