-- ==== Sys2Proof/Machine/Output.lean ====
section
/-! DEFINITION. The digest as bytes and as text (spec/44_digest_output.md R212-R214): functions the host applies to
the four DIGEST words. -/

namespace Sys2Proof.Machine

/-- The 16 bytes of the digest (R212). -/
def serialise (q : Quad) : List Byte := le32 q.a ++ le32 q.b ++ le32 q.c ++ le32 q.d

/-- `0123456789abcdef` (R213). -/
def hexAlphabet : List Char := ['0', '1', '2', '3', '4', '5', '6', '7', '8', '9', 'a', 'b', 'c', 'd', 'e', 'f']

/-- The character of a nibble (R213). -/
def hexDigit (n : BitVec 4) : Char := hexAlphabet.getD n.toNat '0'

/-- A byte as two characters, the high nibble first (R213). -/
def hexByte (b : Byte) : List Char := [hexDigit (b.extractLsb' 4 4), hexDigit (b.extractLsb' 0 4)]

/-- `HexRender(DIGEST)` (R213), as its characters. -/
def hexRender (q : Quad) : List Char := (serialise q).flatMap hexByte

end Sys2Proof.Machine
end

