-- ==== Sys2Proof/Machine/Assembler.lean ====
section
/-! DEFINITION. Host programs: the expansion of the notation of spec/30_encoding.md R89 and R90 into host operations,
and the procedure of spec/40_commands.md R111. -/

namespace Sys2Proof.Machine

/-- A CMD write of a command (R89). -/
def command (i : Instr) : HostOp := .write Reg.cmd.offset 4 (encode i)

/-- The UTF-16 code units of a character: itself, or its surrogate pair above U+FFFF (R13, R132, R133). -/
def utf16Units (c : Char) : List CodeUnit :=
  if c.toNat < 0x10000 then [BitVec.ofNat 16 c.toNat]
  else [BitVec.ofNat 16 (0xD800 + (c.toNat - 0x10000) / 0x400), BitVec.ofNat 16 (0xDC00 + (c.toNat - 0x10000) % 0x400)]

/-- The body of `FEEDSTR`: "for each UTF-16 code unit u of text, in order: FEEDCU u; WAIT" (R90). -/
def feedUnits (us : List CodeUnit) : List HostOp := us.flatMap (fun u => [command (.feedcu u), .wait])

/-- READDIGEST (R90): the reads of DIGEST0..DIGEST3, into the variables given, or into none. -/
def readDigestOps (d : Option DigestVars) : List HostOp :=
  [.read Reg.digest0.offset 4 (d.map DigestVars.d0), .read Reg.digest1.offset 4 (d.map DigestVars.d1),
   .read Reg.digest2.offset 4 (d.map DigestVars.d2), .read Reg.digest3.offset 4 (d.map DigestVars.d3)]

/-- The operations a program stands for (R89, R90). The operands of a well-formed program fit, so nothing is cut
off. -/
def Asm.expand : Asm → List HostOp
  | .skip => []
  | .seq p q => Asm.expand p ++ Asm.expand q
  | .nop => [command .nop]
  | .init => [command .init]
  | .feedcu u => [command (.feedcu (BitVec.ofNat 16 u))]
  | .feedb b => [command (.feedb (BitVec.ofNat 8 b))]
  | .final => [command .final]
  | .cmd w => [.write Reg.cmd.offset 4 (BitVec.ofNat 32 w)]
  | .wr off v => [.write off 4 (BitVec.ofNat 32 v)]
  | .rd off name => [.read off 4 (some name)]
  | .wait => [.wait]
  | .clrerr => [.write Reg.errinfo.offset 4 0x00000001#32]
  | .feedstr text => feedUnits (text.flatMap utf16Units)
  | .feedbytes bs => bs.flatMap (fun b => [command (.feedb (BitVec.ofNat 8 b)), .wait])
  | .readdigest d => readDigestOps (some d)
  | .rep n body => (List.replicate n (Asm.expand body)).flatten
  | .digest text d =>
    [command .init] ++ feedUnits (text.flatMap utf16Units) ++ [command .final, .wait] ++ readDigestOps (some d)

/-- The assembler: it rejects a program with an operand that does not fit (R89). -/
def assemble (p : Asm) : Option (List HostOp) := if p.wf then some (Asm.expand p) else none

/-- The host procedure `digest(u1..un)` (R111), up to the four reads, whose values are the tuple `d`; its result is
`hexRender` of them. -/
def digestProcedure (us : List CodeUnit) : List HostOp :=
  [.wait, command .init] ++ feedUnits us ++ [command .final, .wait] ++ readDigestOps none

/-- A host that "waits for BUSY = 0 before every CMD write" (R110), and once at the end. -/
def politeProgram (is : List Instr) : List HostOp := is.flatMap (fun i => [.wait, command i]) ++ [.wait]

end Sys2Proof.Machine
end

