-- ==== Sys2Proof/Machine/Parser.lean ====
section
/-! DEFINITION. The assembler's text (spec/30_encoding.md R89, R90): characters to tokens, tokens to a program. What the
rules leave open of the text is log 17. -/

namespace Sys2Proof.Machine

/-! ### Tokens -/

/-- A token of the text. A word is a mnemonic, a number or a name. -/
inductive Token where
  | word (cs : List Char)
  | text (cs : List Char)
  | comma
  | arrow
  | openBrace
  | closeBrace
  | newline
deriving DecidableEq, Repr

/-- Where the reader is: between or inside words, in a comment, or inside a quoted text. -/
inductive LexMode where
  | plain
  | comment
  | text
deriving DecidableEq, Repr

/-- The word read so far, if any, put before the tokens that follow. `acc` is in reverse. -/
def flushWord (acc : List Char) (ts : List Token) : List Token :=
  if acc = [] then ts else .word acc.reverse :: ts

/-- The tokens of a text. "Comments run from `;` to the end of the line" (R89). These points are the model's own (DESIGN
CHOICE, log 17): `->` is an arrow only where no other character of a word stands right before it (`RD STATUS->s` has
none), while commas, quotes, braces and `;` need no blank before them; a `;` inside a quoted text is a character of it and
starts no comment; a line's end inside one is a character of it; a text still open at the end of the input is a token. -/
def lex : LexMode → List Char → List Char → List Token
  | .plain, acc, [] => flushWord acc []
  | .comment, _, [] => []
  | .text, acc, [] => [.text acc.reverse]
  | .comment, _, c :: cs => if c = '\n' then .newline :: lex .plain [] cs else lex .comment [] cs
  | .text, acc, c :: cs => if c = '"' then .text acc.reverse :: lex .plain [] cs else lex .text (c :: acc) cs
  | .plain, acc, c :: cs =>
    if c = ';' then flushWord acc (lex .comment [] cs)
    else if c = '\n' then flushWord acc (.newline :: lex .plain [] cs)
    else if c = ' ' ∨ c = '\t' then flushWord acc (lex .plain [] cs)
    else if c = ',' then flushWord acc (.comma :: lex .plain [] cs)
    else if c = '"' then flushWord acc (lex .text [] cs)
    else if c = '>' ∧ acc = ['-'] then .arrow :: lex .plain [] cs
    else if c.toNat = 123 then flushWord acc (.openBrace :: lex .plain [] cs)
    else if c.toNat = 125 then flushWord acc (.closeBrace :: lex .plain [] cs)
    else lex .plain (c :: acc) cs

/-! ### Numbers and offsets -/

/-- The value of a digit, 0..15, in either case. -/
def digitValue (c : Char) : Option Nat :=
  if '0' ≤ c ∧ c ≤ '9' then some (c.toNat - 48)
  else if 'a' ≤ c ∧ c ≤ 'f' then some (c.toNat - 87)
  else if 'A' ≤ c ∧ c ≤ 'F' then some (c.toNat - 55)
  else none

/-- The digits of a number in a base, most significant first, after the value `acc`. -/
def digitsFrom (base : Nat) : Nat → List Char → Option Nat
  | acc, [] => some acc
  | acc, c :: cs =>
    match digitValue c with
    | some d => if d < base then digitsFrom base (acc * base + d) cs else none
    | none => none

/-- "Numbers are written `0x` hexadecimal or decimal" (R89). -/
def number : List Char → Option Nat
  | [] => none
  | '0' :: 'x' :: c :: cs => digitsFrom 16 0 (c :: cs)
  | c :: cs => digitsFrom 10 0 (c :: cs)

/-- The names that may stand for offsets (R89). The two reserved words have none. -/
def regNames : List (List Char × Reg) :=
  [(['C', 'M', 'D'], .cmd), (['S', 'T', 'A', 'T', 'U', 'S'], .status),
   (['E', 'R', 'R', 'I', 'N', 'F', 'O'], .errinfo), (['E', 'R', 'R', 'C', 'M', 'D'], .errcmd),
   (['L', 'E', 'N', '_', 'L', 'O'], .lenLo), (['L', 'E', 'N', '_', 'H', 'I'], .lenHi),
   (['D', 'I', 'G', 'E', 'S', 'T', '0'], .digest0), (['D', 'I', 'G', 'E', 'S', 'T', '1'], .digest1),
   (['D', 'I', 'G', 'E', 'S', 'T', '2'], .digest2), (['D', 'I', 'G', 'E', 'S', 'T', '3'], .digest3),
   (['C', 'V', '_', 'A'], .cvA), (['C', 'V', '_', 'B'], .cvB),
   (['C', 'V', '_', 'C'], .cvC), (['C', 'V', '_', 'D'], .cvD)]

/-- An offset: a register's name or a number (R89). -/
def offsetOf (cs : List Char) : Option Nat :=
  match regNames.find? (fun p => p.1 == cs) with
  | some p => some p.2.offset
  | none => number cs

/-- `b0, b1, ...`: numbers with commas between them (R90). -/
def numberList : List Token → Option (List Nat)
  | [.word c] => (number c).map (fun n => [n])
  | .word c :: .comma :: ts =>
    match number c, numberList ts with
    | some n, some ns => some (n :: ns)
    | _, _ => none
  | _ => none

/-- The range `d0..d3` of R90, written as one word, for any stem in the place of `d` (log 17). -/
def digestRange (w : List Char) : Option DigestVars :=
  let stem := w.take ((w.length - 4) / 2)
  if w = stem ++ ['0', '.', '.'] ++ stem ++ ['3'] then
    some ⟨stem ++ ['0'], stem ++ ['1'], stem ++ ['2'], stem ++ ['3']⟩
  else none

/-- The four variables that receive the digest: `d0,d1,d2,d3`, or the range (R90). -/
def digestVars : List Token → Option DigestVars
  | [.word d0, .comma, .word d1, .comma, .word d2, .comma, .word d3] => some ⟨d0, d1, d2, d3⟩
  | [.word w] => digestRange w
  | _ => none

/-! ### Operations (R89, R90) -/

/-- One operation, without its comment; the empty line is no operation. -/
def operationOf : List Token → Option Asm
  | [] => some .skip
  | .word ['N', 'O', 'P'] :: [] => some .nop
  | .word ['I', 'N', 'I', 'T'] :: [] => some .init
  | .word ['F', 'E', 'E', 'D', 'C', 'U'] :: [.word u] => (number u).map .feedcu
  | .word ['F', 'E', 'E', 'D', 'B'] :: [.word b] => (number b).map .feedb
  | .word ['F', 'I', 'N', 'A', 'L'] :: [] => some .final
  | .word ['C', 'M', 'D'] :: [.word w] => (number w).map .cmd
  | .word ['W', 'R'] :: [.word off, .comma, .word v] =>
    match offsetOf off, number v with
    | some o, some n => some (.wr o n)
    | _, _ => none
  | .word ['R', 'D'] :: [.word off, .arrow, .word name] => (offsetOf off).map (fun o => .rd o name)
  | .word ['W', 'A', 'I', 'T'] :: [] => some .wait
  | .word ['C', 'L', 'R', 'E', 'R', 'R'] :: [] => some .clrerr
  | .word ['F', 'E', 'E', 'D', 'S', 'T', 'R'] :: [.text t] => some (.feedstr t)
  | .word ['F', 'E', 'E', 'D', 'B', 'Y', 'T', 'E', 'S'] :: bs => (numberList bs).map .feedbytes
  | .word ['R', 'E', 'A', 'D', 'D', 'I', 'G', 'E', 'S', 'T'] :: .arrow :: ts => (digestVars ts).map .readdigest
  | .word ['D', 'I', 'G', 'E', 'S', 'T'] :: .text t :: .arrow :: ts => (digestVars ts).map (.digest t)
  | _ => none

/-- The count of a `REPEAT n` that an open brace follows (R90). -/
def repeatOf : List Token → Option Nat
  | [.word ['R', 'E', 'P', 'E', 'A', 'T'], .word n] => number n
  | _ => none

/-- The operation that `line`, in reverse, has collected, put after the program so far. -/
def endLine (cur : Asm) (line : List Token) : Option Asm := (operationOf line.reverse).map (fun op => .seq cur op)

/-- The program of a token list: `outer` are the REPEATs not yet closed, innermost first, each with its count and the
program before it; `cur` is the program so far of the innermost; `line` is the operation being read, in reverse. -/
def programOf : List (Nat × Asm) → Asm → List Token → List Token → Option Asm
  | [], cur, line, [] => endLine cur line
  | _ :: _, _, _, [] => none
  | outer, cur, line, .newline :: ts =>
    match endLine cur line with
    | some p => programOf outer p [] ts
    | none => none
  | outer, cur, line, .openBrace :: ts =>
    match repeatOf line.reverse with
    | some n => programOf ((n, cur) :: outer) .skip [] ts
    | none => none
  | [], _, _, .closeBrace :: _ => none
  | (n, before) :: outer, cur, line, .closeBrace :: ts =>
    match endLine cur line with
    | some body => programOf outer (.seq before (.rep n body)) [] ts
    | none => none
  | outer, cur, line, t :: ts => programOf outer cur (t :: line) ts

/-- The program a text writes, if it writes one (R89, R90). -/
def parse (text : List Char) : Option Asm := programOf [] .skip [] (lex .plain [] text)

/-- The host operations a text assembles to, if the assembler accepts it (R89, R90). -/
def assembleText (text : List Char) : Option (List HostOp) := (parse text).bind assemble

end Sys2Proof.Machine
end

