-- ==== Sys2Proof/Machine/Timing.lean ====
section
/-! DEFINITION. How many micro-steps an engine still has to take, and what they cost in clocks
(spec/43_compression.md R192, R193; spec/70_reset_and_hazards.md R272). -/

namespace Sys2Proof.Machine

/-- The micro-steps left of the block in compression: operations i..63 and the feed-forward (R27, R193). -/
def Seq.left : Seq → Nat
  | .sidle => 0
  | .round i => 65 - i.val
  | .ff => 1

/-- The blocks that the bytes still queued will fill: the block in compression, if any, is already full (R137, R140,
R179). -/
def Engine.blocksLeft (e : Engine) : Nat :=
  match e.seq with
  | .sidle => (e.bcnt + e.queue.length) / 64
  | .round _ => e.queue.length / 64
  | .ff => e.queue.length / 64

/-- The micro-steps the engine takes before it is quiescent: the rest of the current block, one Absorb per queued
byte, "64 Round steps plus 1 FeedForward, 65 in all" per block they fill, and the Latch that is due (R193). -/
def Engine.remaining (e : Engine) : Nat :=
  e.seq.left + e.queue.length + 65 * e.blocksLeft + e.fin.toNat

/-- The engine when it has taken every micro-step it has, with no host action between (R192). -/
def Engine.settle (e : Engine) : Engine := e.runFor e.remaining

/-- The clocks one micro-step takes (R272). -/
def MicroStep.clocks (t : Config.Timing) : MicroStep → Nat
  | .absorb => t.tAbsorb
  | .round _ => t.tRound
  | .feedForward => t.tFf
  | .latch => t.tLatch

/-- The clocks the engine's next `n` micro-steps take: "the sum over its micro-steps" (R272). -/
def Engine.clocksFor (t : Config.Timing) : Nat → Engine → Nat
  | 0, _ => 0
  | n + 1, e =>
    match e.enabled with
    | some m => m.clocks t + (m.run e).clocksFor t n
    | none => 0

/-- The latency of what the engine has accepted: the clocks until BUSY = 0 (R272). -/
def Engine.latency (t : Config.Timing) (e : Engine) : Nat := e.clocksFor t e.remaining

end Sys2Proof.Machine
end

