-- ==== Sys2Proof/Machine/Reference.lean ====
section
/-! DEFINITION. What the rules say of whole words, blocks and messages, written apart from the step function for the
statements to compare it with: `Submit` and `Check` as R100 and R231 write them, MD5 over a byte list as the spec's
stages give it (R3, R152-R154, R178-R180), and what it means that an engine holds a message. -/

namespace Sys2Proof.Machine

/-! ### A submitted word -/

/-- `Check(w)` (R231). -/
def check (e : Engine) (w : Word) : Decoded :=
  if e.busy then .reject .busy
  else
    match decode w with
    | .reject c => .reject c
    | .command i => if needsActive i ∧ e.phase ≠ .active then .reject .phase else .command i

/-- `Execute`: the pseudocode of each command (R101-R105). -/
def Engine.execute : Instr → Engine → Engine
  | .nop, e => e
  | .init, e => e.startContext
  | .feedcu u, e => e.enqueue (countedEntries (utf8Bytes u))
  | .feedb b, e => e.enqueue (countedEntries [b])
  | .final, e => e.finish

/-- `Submit(w)` (R100). -/
def Engine.submit (w : Word) (e : Engine) : Engine :=
  match check e w with
  | .reject c => e.recordError c w
  | .command i => e.execute i

/-! ### MD5 of a byte list -/

/-- One operation in the standard's form: the register named first receives
`b + rotl(a + f(b, c, d) + X[K[i]] + T[i], S[i])` (R177, R178). -/
def standardOp (i : Fin 64) (x : Vector Word 16) (a b c d : Word) : Word :=
  b + rotl (a + roundFn i b c d + romT i + x.get (romK i)) (romS i)

/-- Operations 4j..4j+3 with the standard's "rotating naming of a, b, c and d across the four operations of each
group" (R178). -/
def standardGroup (j : Fin 16) (x : Vector Word 16) (q : Quad) : Quad :=
  let a := standardOp ⟨4 * j, by omega⟩ x q.a q.b q.c q.d
  let d := standardOp ⟨4 * j + 1, by omega⟩ x q.d a q.b q.c
  let c := standardOp ⟨4 * j + 2, by omega⟩ x q.c d a q.b
  let b := standardOp ⟨4 * j + 3, by omega⟩ x q.b c d a
  ⟨a, b, c, d⟩

/-- The compression of one block: sixteen groups, then the feed-forward (R178-R180). -/
@[irreducible] def compress (cv : Quad) (x : Vector Word 16) : Quad :=
  ((List.finRange 16).foldl (fun q j => standardGroup j x q) cv).add cv

/-- `X[k] = {byte[4k+3], byte[4k+2], byte[4k+1], byte[4k]}` (R138); a missing byte is 0. -/
def packBlock (bs : List Byte) : Vector Word 16 :=
  Vector.ofFn fun k : Fin 16 =>
    wordOfBytes (bs.getD (4 * k) 0) (bs.getD (4 * k + 1) 0) (bs.getD (4 * k + 2) 0) (bs.getD (4 * k + 3) 0)

/-- Block `k` of a byte list: its bytes 64k..64k+63, as words (R138, R180). -/
def blockAt (bs : List Byte) (k : Nat) : Vector Word 16 := packBlock ((bs.drop (64 * k)).take 64)

/-- The chaining value after the first `n` 64-byte blocks of `bs`, "for each consecutive 16-word (512-bit) block" in
message order (R180). -/
def chain (n : Nat) (bs : List Byte) (cv : Quad) : Quad :=
  (List.range n).foldl (fun q k => compress q (blockAt bs k)) cv

/-- The padded message (R152-R154): the length is that of the message in bits, modulo 2^64 (R158). -/
def padded (m : List Byte) : List Byte := m ++ padBytes (padZeros m.length) (BitVec.ofNat 64 (8 * m.length))

/-- MD5 of a byte list, as the four words A..D after the last block (R3, R180, R210). -/
def md5 (m : List Byte) : Quad := chain ((padded m).length / 64) (padded m) iv

/-! ### Messages -/

/-- The message bytes a command appends (R109). -/
def messageBytes : Instr → List Byte
  | .nop => []
  | .init => []
  | .feedcu u => utf8Bytes u
  | .feedb b => [b]
  | .final => []

/-- A quiescent engine in phase ACTIVE that has absorbed the message `m` since its INIT: A..D are the chaining value
of its whole blocks, and X, bcnt hold the rest (R102, R137-R140, R180, R109). -/
def Engine.Holds (e : Engine) (m : List Byte) : Prop :=
  e.phase = .active ∧ e.busy = false ∧
  e.cv = chain (m.length / 64) m iv ∧
  e.bcnt = m.length % 64 ∧
  e.x = packBlock (m.drop (64 * (m.length / 64))) ∧
  e.len = BitVec.ofNat 64 (8 * m.length)

end Sys2Proof.Machine
end

