-- ==== Sys2Proof/Safety.lean ====
section
/-! DEFINITION. What counts as a good state and a good run, in the terms the statements use: the invariants of
spec/10_state.md R45, the end of a run and its observation (spec/70_reset_and_hazards.md R274), and when a digest may
be relied on (R266, R269). -/

namespace Sys2Proof.Machine

/-! ### Invariants -/

/-- (I1)-(I7) of R45, one conjunct each, in that order. -/
abbrev Engine.SpecInv (e : Engine) : Prop :=
  (e.seq ≠ .sidle → e.bcnt = 64) ∧
  (e.seq = .sidle → e.bcnt ≤ 63) ∧
  (e.phase ≠ .active → e.queue = [] ∧ e.seq = .sidle ∧ e.fin = false) ∧
  (e.fin = true → ∀ q ∈ e.queue, q.counted = false) ∧
  (e.phase = .active → e.busy = false → e.bcnt = (e.len.toNat / 8) % 64) ∧
  (e.phase = .done → e.cv = e.digest ∧ e.bcnt = 0) ∧
  e.queue.length ≤ 72

/-- What (I1)-(I7) rest on between commands, and what the rules say of X and of the error record: with no FINAL
accepted the queue holds message bytes only (R136); LEN counts whole bytes (R139) and agrees with bcnt (R26, R30);
FINAL's padding ends at a block's end (R152, R157); an empty block buffer is zero (R102, R179); a cleared record reads
0 (R38, R39), and a recorded code is one of 1..4 (R232). -/
abbrev Engine.StepInv (e : Engine) : Prop :=
  (e.fin = false → ∀ q ∈ e.queue, q.counted = true) ∧
  e.len.toNat % 8 = 0 ∧
  (e.phase = .active → e.fin = false → e.bcnt % 64 = (e.len.toNat / 8) % 64) ∧
  (e.fin = true → (e.bcnt + e.queue.length) % 64 = 0) ∧
  (e.seq = .sidle → e.bcnt = 0 → e.x = Vector.replicate 16 0) ∧
  (e.errValid = false → e.errOvf = false ∧ e.errCode = 0 ∧ e.errCmd = 0) ∧
  (e.errValid = true → 1 ≤ e.errCode.toNat ∧ e.errCode.toNat ≤ 4)

/-- The invariant of the engine: R45, and what makes every step keep it. -/
abbrev Engine.Inv (e : Engine) : Prop := e.SpecInv ∧ e.StepInv

/-! ### Transitions -/

/-- The next transition is the host's, and `ts` are the turns that are left: either the host's turn is next, or no
turn is scripted and the engine has no step (R62, log 1). -/
def State.hostMoves (s : State) (ts : List Turn) : Prop :=
  s.turns = .host :: ts ∨ (s.turns = [] ∧ ts = [] ∧ s.eng.busy = false)

/-- The state in which the host's next operation has been taken, `rest` and `ts` being what is left. -/
def State.popped (s : State) (rest : List HostOp) (ts : List Turn) : State :=
  { s with pending := rest, turns := ts }

/-- The state in which the word `w` has been rejected with `c` (R234). -/
def State.rejected (c : InvalidArgument) (w : Word) (s : State) : State :=
  { s with eng := s.eng.recordError c w }

/-- The engine takes exactly `n` micro-steps, with no host action, until BUSY = 0 (R192, R193). -/
def Engine.takesSteps (n : Nat) (e : Engine) : Prop :=
  (e.runFor n).busy = false ∧ ∀ k < n, (e.runFor k).busy = true

/-! ### Runs -/

/-- The host's program, run on an engine, under an order of turns that holds no reset. -/
def State.noReset (s : State) : Prop := Turn.reset ∉ s.turns

/-- "A host program's run ends when the host has performed its last access and the engine is quiescent" (R274). -/
def State.ended (s : State) : Prop := s.pending = [] ∧ s.eng.busy = false

/-- The observation of a run that has ended: "the value of every register of 10_state.md rule R35 at that point"
(R274), in the order of their offsets. -/
def State.observation (s : State) : List Word := Reg.all.map s.eng.regValue

/-- DIGEST0..3 hold the current context's digest: PHASE = DONE, "which implies BUSY = 0" (R266). -/
def Engine.digestReady (e : Engine) : Prop := e.phase = .done

/-- What "software that needs a correct digest must see": ERR = 0 after FINAL completes (R269). -/
def Engine.digestTrusted (e : Engine) : Prop := e.digestReady ∧ e.errValid = false

end Sys2Proof.Machine
end

