-- ==== Sys2Proof/Certificates/Slice0/Obligations.lean ====
section
/-! DEFINITION. The statements for the provers: the numbered rules of spec/ that say what the machine does. -/

open Sys2Proof Sys2Proof.Machine

/-! ### Command words (spec/30_encoding.md) -/

/-- Decode and encode agree: no bit of a command's word is dropped, for every command and operand (R82, R84, R89). -/
def Obligations.DecodeOfEncode : Prop :=
  ∀ i : Instr, decode (encode i) = .command i

/-- Each word has one meaning: a word that decodes to a command is that command's word (R82, R84, R89). -/
def Obligations.EncodeOfDecode : Prop :=
  ∀ (w : Word) (i : Instr), decode w = .command i → encode i = w

/-- R83: a word is the command of a row exactly when `(w & mask) = match`, and the five rows are disjoint; its operand
is the field R82 names. -/
def Obligations.WordsOfEachCommand : Prop :=
  ∀ w : Word,
    (decode w = .command .nop ↔ w &&& 0xFFFFFFFF#32 = 0x00000000#32) ∧
    (decode w = .command .init ↔ w &&& 0xFFFFFFFF#32 = 0x00000001#32) ∧
    (∀ u, decode w = .command (.feedcu u) ↔ w &&& 0x0000FFFF#32 = 0x00000002#32 ∧ u = w.extractLsb' 16 16) ∧
    (∀ b, decode w = .command (.feedb b) ↔ w &&& 0xFF00FFFF#32 = 0x00000003#32 ∧ b = w.extractLsb' 16 8) ∧
    (decode w = .command .final ↔ w &&& 0xFFFFFFFF#32 = 0x00000004#32) ∧
    (∀ i j : Instr, inRow i w = true → inRow j w = true → i.pattern = j.pattern)

/-- R85 and R86: an unassigned opcode is rejected with ILLEGAL_OPCODE, whatever its other bits; an assigned opcode
with a nonzero bit where R83 requires 0 is rejected with RESERVED_BITS. While BUSY = 1 the code is BUSY (R231). -/
def Obligations.IllegalAndReservedWordsRejected : Prop :=
  ∀ (w : Word) (s : State),
    let rejectedWith := fun (c : InvalidArgument) => s.rejected (if s.eng.busy = true then .busy else c) w
    ((w.extractLsb' 0 8).toNat ≥ 0x05 → submit w s = .next (rejectedWith .illegalOpcode)) ∧
    ((w.extractLsb' 0 8 = 0x00#8 ∨ w.extractLsb' 0 8 = 0x01#8 ∨ w.extractLsb' 0 8 = 0x04#8) →
      w.extractLsb' 8 24 ≠ 0#24 → submit w s = .next (rejectedWith .reservedBits)) ∧
    (w.extractLsb' 0 8 = 0x02#8 → w.extractLsb' 8 8 ≠ 0#8 → submit w s = .next (rejectedWith .reservedBits)) ∧
    (w.extractLsb' 0 8 = 0x03#8 → (w.extractLsb' 8 8 ≠ 0#8 ∨ w.extractLsb' 24 8 ≠ 0#8) →
      submit w s = .next (rejectedWith .reservedBits))

/-- Words of spec/95_test_vectors.md decode to the commands, or the rejections, they stand for there. -/
def Obligations.DecodesWrittenWords : Prop :=
  decode 0x00000000#32 = .command .nop ∧ decode 0x00000001#32 = .command .init ∧
  decode 0x4E2D0002#32 = .command (.feedcu 0x4E2D#16) ∧ decode 0x00610003#32 = .command (.feedb 0x61#8) ∧
  decode 0x00000004#32 = .command .final ∧
  decode 0x00000105#32 = .reject .illegalOpcode ∧ decode 0x00000101#32 = .reject .reservedBits ∧
  decode 0x01000003#32 = .reject .reservedBits ∧ decode 0x00010004#32 = .reject .reservedBits

/-! ### Submission and rejection (spec/40_commands.md R100, spec/60_exceptions.md) -/

/-- The step runs the decoded command: when the host moves and its next operation writes `w` to CMD, the step is
`exec` of the command `w` decodes to, or the rejection of `w`, in the state with that operation and that turn taken.
When the host moves, and where its operations stand, are the model's own (logs 1, 3). -/
def Obligations.StepRunsTheDecodedCommand : Prop :=
  ∀ (s : State) (w : Word) (rest : List HostOp) (ts : List Turn),
    s.pending = .write 0x00 4 w :: rest → s.hostMoves ts →
    (∀ i, decode w = .command i → step s = exec i (s.popped rest ts)) ∧
    (∀ c, decode w = .reject c →
      step s = .next ((s.popped rest ts).rejected (if s.eng.busy then .busy else c) w))

/-- R100 and R231: a CMD write is one transition that does `Check`, and then `RecordError` or `Execute`, as R100 writes
`Submit`. -/
def Obligations.SubmitIsCheckThenExecute : Prop :=
  ∀ (w : Word) (s : State), submit w s = .next { s with eng := s.eng.submit w }

/-- R232, R234, R235, R238: a rejected word changes the error record and nothing else; the first rejection stores the
code's number and the full word, a further one only sets OVF. -/
def Obligations.RejectionsArePrecise : Prop :=
  (codeOf .busy = 1#4 ∧ codeOf .illegalOpcode = 2#4 ∧ codeOf .reservedBits = 3#4 ∧ codeOf .phase = 4#4) ∧
  ∀ (w : Word) (s : State) (c : InvalidArgument), check s.eng w = .reject c →
    (s.eng.errValid = false →
      submit w s = .next { s with eng := { s.eng with errValid := true, errCode := codeOf c, errCmd := w } }) ∧
    (s.eng.errValid = true → submit w s = .next { s with eng := { s.eng with errOvf := true } })

/-- R233: exactly one code is given to a rejected word; BUSY comes first, then ILLEGAL_OPCODE, then RESERVED_BITS,
then PHASE; with the rule's two examples. -/
def Obligations.RejectionPriority : Prop :=
  (∀ (w : Word) (s : State),
    (s.eng.busy = true → submit w s = .next (s.rejected .busy w)) ∧
    (s.eng.busy = false → decode w = .reject .illegalOpcode → submit w s = .next (s.rejected .illegalOpcode w)) ∧
    (s.eng.busy = false → decode w = .reject .reservedBits → submit w s = .next (s.rejected .reservedBits w)) ∧
    (s.eng.busy = false → s.eng.phase ≠ .active →
      ((∃ u, decode w = .command (.feedcu u)) ∨ (∃ b, decode w = .command (.feedb b)) ∨ decode w = .command .final) →
      submit w s = .next (s.rejected .phase w)) ∧
    (s.eng.busy = false → ∀ i, decode w = .command i → (s.eng.phase = .active ∨ i = .nop ∨ i = .init) →
      submit w s = .next { s with eng := s.eng.execute i })) ∧
  (∀ s : State, s.eng.busy = false → submit 0x00000105#32 s = .next (s.rejected .illegalOpcode 0x00000105#32)) ∧
  submit 0x00010002#32 State.reset = .next (State.reset.rejected .phase 0x00010002#32)

/-- R236: a recorded error does not block anything. A command does to an engine with a recorded error what it does to
the same engine with the record cleared, but for the record. -/
def Obligations.ErrorsDoNotBlock : Prop :=
  ∀ (i : Instr) (s : State), ∃ t u : State,
    exec i s = .next t ∧ exec i { s with eng := s.eng.clearErrors } = .next u ∧
    t.eng.clearErrors = u.eng.clearErrors ∧ { t with eng := u.eng } = u

/-- R106: a write of ERRINFO whose bit 0 is 1 clears the whole record, one whose bit 0 is 0 does nothing; BUSY or not,
in every phase, and nothing else is touched. -/
def Obligations.ErrinfoWriteClears : Prop :=
  ∀ (s : State) (v : Word) (rest : List HostOp) (ts : List Turn),
    s.pending = .write 0x08 4 v :: rest → s.hostMoves ts →
    (v.getLsbD 0 = true → step s = .next { s.popped rest ts with
      eng := { s.eng with errValid := false, errOvf := false, errCode := 0#4, errCmd := 0#32 } }) ∧
    (v.getLsbD 0 = false → step s = .next (s.popped rest ts))

/-- R237: the error record is cleared by the ERRINFO write and by reset, and by nothing else; until then the first
code and word, and OVF once it is set, are kept. When the host moves is the model's own (log 1). -/
def Obligations.OnlyErrinfoWriteAndResetClear : Prop :=
  ∀ s t : State, step s = .next t → s.eng.errValid = true →
    (t.eng.errValid = true ∧ t.eng.errCode = s.eng.errCode ∧ t.eng.errCmd = s.eng.errCmd ∧
      (s.eng.errOvf = true → t.eng.errOvf = true)) ∨
    ((t.eng.errValid = false ∧ t.eng.errOvf = false ∧ t.eng.errCode = 0#4 ∧ t.eng.errCmd = 0#32) ∧
      ((∃ ts, s.turns = .reset :: ts) ∨
        (∃ v rest ts, s.pending = .write 0x08 4 v :: rest ∧ s.hostMoves ts ∧ v.getLsbD 0 = true)))

/-! ### The commands (spec/40_commands.md) -/

/-- R101: NOP is accepted in every phase and does nothing; its rejections are BUSY and RESERVED_BITS. -/
def Obligations.NopDoesNothing : Prop :=
  encode .nop = 0x00000000#32 ∧
  ∀ s : State,
    (s.eng.busy = false → exec .nop s = .next s) ∧
    (s.eng.busy = true → exec .nop s = .next (s.rejected .busy 0x00000000#32)) ∧
    (∀ w : Word, s.eng.busy = false → w.extractLsb' 0 8 = 0x00#8 → w.extractLsb' 8 24 ≠ 0#24 →
      submit w s = .next (s.rejected .reservedBits w))

/-- R102: INIT is accepted in every phase; it loads the IV, clears LEN, bcnt and X, enters ACTIVE, leaves BUSY at 0 and
changes nothing else; its rejections are BUSY and RESERVED_BITS. -/
def Obligations.InitStartsAContext : Prop :=
  encode .init = 0x00000001#32 ∧
  ∀ s : State,
    (s.eng.busy = false →
      exec .init s = .next { s with eng := { s.eng with
        cv := ⟨0x67452301#32, 0xEFCDAB89#32, 0x98BADCFE#32, 0x10325476#32⟩
        len := 0#64, bcnt := 0, x := Vector.replicate 16 0#32, phase := .active } } ∧
      s.eng.queue = [] ∧ s.eng.seq = .sidle ∧ s.eng.fin = false) ∧
    (s.eng.busy = true → exec .init s = .next (s.rejected .busy 0x00000001#32)) ∧
    (∀ w : Word, s.eng.busy = false → w.extractLsb' 0 8 = 0x01#8 → w.extractLsb' 8 24 ≠ 0#24 →
      submit w s = .next (s.rejected .reservedBits w))

/-- R103: FEEDCU, accepted in ACTIVE only, queues the code unit's UTF-8 bytes as counted entries, which makes BUSY 1,
and changes nothing else; its rejections are BUSY, PHASE and RESERVED_BITS. -/
def Obligations.FeedcuQueuesItsBytes : Prop :=
  ∀ (u : CodeUnit) (s : State),
    encode (.feedcu u) = (u.setWidth 32 <<< 16) ||| 0x00000002#32 ∧
    (s.eng.busy = false → s.eng.phase = .active → ∃ t : State,
      exec (.feedcu u) s = .next t ∧
      t = { s with eng := { s.eng with queue := (utf8Bytes u).map fun b => ⟨b, true⟩ } } ∧ t.eng.busy = true) ∧
    (s.eng.busy = true → exec (.feedcu u) s = .next (s.rejected .busy (encode (.feedcu u)))) ∧
    (s.eng.busy = false → s.eng.phase ≠ .active →
      exec (.feedcu u) s = .next (s.rejected .phase (encode (.feedcu u)))) ∧
    (∀ w : Word, s.eng.busy = false → w.extractLsb' 0 8 = 0x02#8 → w.extractLsb' 8 8 ≠ 0#8 →
      submit w s = .next (s.rejected .reservedBits w))

/-- R104: FEEDB, accepted in ACTIVE only, queues its byte as a counted entry, which makes BUSY 1, and changes nothing
else; its rejections are BUSY, PHASE and RESERVED_BITS. -/
def Obligations.FeedbQueuesItsByte : Prop :=
  ∀ (b : Byte) (s : State),
    encode (.feedb b) = (b.setWidth 32 <<< 16) ||| 0x00000003#32 ∧
    (s.eng.busy = false → s.eng.phase = .active → ∃ t : State,
      exec (.feedb b) s = .next t ∧ t = { s with eng := { s.eng with queue := [⟨b, true⟩] } } ∧ t.eng.busy = true) ∧
    (s.eng.busy = true → exec (.feedb b) s = .next (s.rejected .busy (encode (.feedb b)))) ∧
    (s.eng.busy = false → s.eng.phase ≠ .active →
      exec (.feedb b) s = .next (s.rejected .phase (encode (.feedb b)))) ∧
    (∀ w : Word, s.eng.busy = false → w.extractLsb' 0 8 = 0x03#8 →
      (w.extractLsb' 24 8 ≠ 0#8 ∨ w.extractLsb' 8 8 ≠ 0#8) → submit w s = .next (s.rejected .reservedBits w))

/-- R105: FINAL, accepted in ACTIVE only, queues 0x80, z zero bytes and the eight bytes of LEN, all uncounted, sets
`fin`, which makes BUSY 1, and changes nothing else; its rejections are BUSY, PHASE and RESERVED_BITS. -/
def Obligations.FinalQueuesThePadding : Prop :=
  encode .final = 0x00000004#32 ∧
  ∀ s : State,
    (s.eng.busy = false → s.eng.phase = .active → ∃ t : State,
      exec .final s = .next t ∧
      t = { s with eng := { s.eng with
        queue := ([0x80#8] ++ List.replicate ((55 - (s.eng.bcnt : Int)) % 64).toNat 0x00#8 ++ le64 s.eng.len).map
          fun b => ⟨b, false⟩
        fin := true } } ∧ t.eng.busy = true) ∧
    (s.eng.busy = true → exec .final s = .next (s.rejected .busy 0x00000004#32)) ∧
    (s.eng.busy = false → s.eng.phase ≠ .active → exec .final s = .next (s.rejected .phase 0x00000004#32)) ∧
    (∀ w : Word, s.eng.busy = false → w.extractLsb' 0 8 = 0x04#8 → w.extractLsb' 8 24 ≠ 0#24 →
      submit w s = .next (s.rejected .reservedBits w))

/-! ### Byte preparation and padding (spec/41_byte_preparation.md, spec/42_padding.md) -/

/-- R131 and R132: the bytes of a code unit, as numbers, in each of the three ranges; a surrogate code unit goes
through the 3-byte branch by itself. -/
def Obligations.Utf8Layout : Prop :=
  utf8Bytes 0xD83D#16 = [0xED#8, 0xA0#8, 0xBD#8] ∧ utf8Bytes 0xDE00#16 = [0xED#8, 0xB8#8, 0x80#8] ∧
  ∀ u : CodeUnit,
    (0xD800 ≤ u.toNat → u.toNat ≤ 0xDFFF →
      (utf8Bytes u).map BitVec.toNat = [0xED, 0x80 + u.toNat / 64 % 64, 0x80 + u.toNat % 64]) ∧
    (u.toNat ≤ 0x7F → (utf8Bytes u).map BitVec.toNat = [u.toNat]) ∧
    (0x7F < u.toNat → u.toNat ≤ 0x7FF →
      (utf8Bytes u).map BitVec.toNat = [0xC0 + u.toNat / 64, 0x80 + u.toNat % 64]) ∧
    (0x7FF < u.toNat →
      (utf8Bytes u).map BitVec.toNat =
        [0xE0 + u.toNat / 4096, 0x80 + u.toNat / 64 % 64, 0x80 + u.toNat % 64])

/-- R130 and C1 of spec/90_conflicts.md: on characters up to U+FFFF the engine's bytes are those of standard UTF-8; a
character above U+FFFF reaches the engine as two units, becomes 6 bytes (R132), and its bytes differ from the 4 of
standard UTF-8. -/
def Obligations.Utf8AgreesUpToFFFF : Prop :=
  ∀ c : Char,
    (c.toNat < 0x10000 →
      ((utf16Units c).flatMap utf8Bytes).map BitVec.toNat = (String.utf8EncodeChar c).map UInt8.toNat) ∧
    (0x10000 ≤ c.toNat →
      ((utf16Units c).flatMap utf8Bytes).length = 6 ∧ (String.utf8EncodeChar c).length = 4)

/-- R152 and R153: z is the least count that brings the block to 56 bytes after the 0x80 byte, and the padding is 0x80,
z zeros and LEN's bytes in the order the rule lists, 9 + z of them, all uncounted. -/
def Obligations.PaddingSequence : Prop :=
  (∀ bcnt : Nat, bcnt ≤ 63 →
    padZeros bcnt ≤ 63 ∧ (bcnt + 1 + padZeros bcnt) % 64 = 56 ∧
    (∀ z, (bcnt + 1 + z) % 64 = 56 → padZeros bcnt ≤ z)) ∧
  padZeros 55 = 0 ∧ padZeros 56 = 63 ∧
  ∀ (z : Nat) (l : Long),
    padBytes z l = [0x80#8] ++ List.replicate z 0x00#8 ++
      [l.extractLsb' 0 8, l.extractLsb' 8 8, l.extractLsb' 16 8, l.extractLsb' 24 8,
       l.extractLsb' 32 8, l.extractLsb' 40 8, l.extractLsb' 48 8, l.extractLsb' 56 8] ∧
    (padBytes z l).length = 9 + z ∧ ∀ q ∈ paddingEntries (padBytes z l), q.counted = false

/-- R154: when the eight length bytes are what is left of the padding, at byte 56 of the block, eight micro-steps put
L[31:0] in X[14] and L[63:32] in X[15], leave the other words of X and LEN as they are, and start the block. -/
def Obligations.LengthGoesToTheLastTwoWords : Prop :=
  ∀ (e : Engine) (l : Long), e.seq = .sidle → e.bcnt = 56 → e.queue = (le64 l).map (fun b => ⟨b, false⟩) →
    let e' := e.runFor 8
    e'.x.get 14 = l.extractLsb' 0 32 ∧ e'.x.get 15 = l.extractLsb' 32 32 ∧
    (∀ k : Fin 16, k.val < 14 → e'.x.get k = e.x.get k) ∧
    e'.seq = .round 0 ∧ e'.queue = [] ∧ e'.len = e.len ∧ e'.save = e.cv

/-- R156: the padded message is a whole number of blocks, floor((n + 8) / 64) + 1 of them; FINAL itself causes one
block when bcnt <= 55 and two when bcnt >= 56. -/
def Obligations.BlockCount : Prop :=
  (∀ m : List Byte,
    (padded m).length = m.length + 9 + padZeros m.length ∧
    (padded m).length = 64 * ((m.length + 8) / 64 + 1)) ∧
  (∀ e : Engine, e.busy = false → e.bcnt ≤ 63 →
    (e.bcnt ≤ 55 → e.finish.blocksLeft = 1) ∧ (56 ≤ e.bcnt → e.finish.blocksLeft = 2))

/-! ### The engine (spec/41_byte_preparation.md, spec/43_compression.md, spec/44_digest_output.md) -/

/-- R190 and R191: the micro-step a state enables, in the order of the rule; the engine has a step exactly when
BUSY = 1; and only a host command, an accepted FEEDCU, FEEDB or FINAL, makes a quiescent engine busy. -/
def Obligations.EngineStepPriority : Prop :=
  (∀ e : Engine,
    (∀ i, e.seq = .round i → e.enabled = some (.round i)) ∧
    (e.seq = .ff → e.enabled = some .feedForward) ∧
    (e.seq = .sidle → e.queue ≠ [] → e.enabled = some .absorb) ∧
    (e.seq = .sidle → e.queue = [] → e.fin = true → e.enabled = some .latch) ∧
    (e.seq = .sidle → e.queue = [] → e.fin = false → e.enabled = none) ∧
    (e.step.isSome = e.busy)) ∧
  (∀ s t : State, step s = .next t → s.eng.busy = false → t.eng.busy = true →
    ∃ i rest ts, s.pending = .write 0x00 4 (encode i) :: rest ∧ s.hostMoves ts ∧ s.eng.phase = .active ∧
      ((∃ u, i = .feedcu u) ∨ (∃ b, i = .feedb b) ∨ i = .final))

/-- R137-R140: Absorb moves the head of Q to byte `bcnt` of X and no other byte, counts it, adds 8 to LEN for a message
byte only, and starts the block exactly when it fills it; it changes no other state. -/
def Obligations.AbsorbMovesOneByte : Prop :=
  ∀ (e : Engine) (q : QEntry) (rest : List QEntry),
    e.seq = .sidle → e.queue = q :: rest → e.bcnt ≤ 63 →
    ∃ e' : Engine, e.step = some e' ∧
      e' = { e with
        queue := rest, bcnt := e.bcnt + 1, len := (if q.counted then e.len + 8 else e.len)
        x := e'.x, save := e'.save, seq := e'.seq } ∧
      (∀ p : Fin 64, byteOf (e'.x.get ⟨p / 4, by omega⟩) (p % 4) =
        if p.val = e.bcnt then q.byte else byteOf (e.x.get ⟨p / 4, by omega⟩) (p % 4)) ∧
      (e.bcnt < 63 → e'.save = e.save ∧ e'.seq = .sidle) ∧
      (e.bcnt = 63 → e'.save = e.cv ∧ e'.seq = .round 0)

/-- R141 and R25: while a block is compressed no byte is absorbed, and the round operations leave X as it is. -/
def Obligations.NoAbsorbDuringABlock : Prop :=
  ∀ e e' : Engine, e.step = some e' → e.seq ≠ .sidle →
    e'.queue = e.queue ∧ e'.len = e.len ∧ (e.seq ≠ .ff → e'.x = e.x ∧ e'.bcnt = e.bcnt)

/-- R177: the round operation i, with its frame. -/
def Obligations.RoundOperation : Prop :=
  ∀ (e : Engine) (i : Fin 64), e.seq = .round i →
    ∃ sq : Seq,
      (i.val < 63 → ∃ j : Fin 64, j.val = i.val + 1 ∧ sq = .round j) ∧ (i.val = 63 → sq = .ff) ∧
      e.step = some { e with
        cv := ⟨e.cv.d,
          e.cv.b + rotl (e.cv.a + roundFn i e.cv.b e.cv.c e.cv.d + romT i + e.x.get (romK i)) (romS i),
          e.cv.b, e.cv.c⟩
        seq := sq }

/-- R172, bit by bit: F chooses y where x is 1 and z elsewhere, G chooses x where z is 1 and y elsewhere, H is the
parity, I is y with the bits flipped where x or not z; each round uses its own (R177). -/
def Obligations.RoundFunctions : Prop :=
  (∀ (x y z : Word) (k : Nat), k < 32 →
    (fnF x y z).getLsbD k = (if x.getLsbD k then y.getLsbD k else z.getLsbD k) ∧
    (fnG x y z).getLsbD k = (if z.getLsbD k then x.getLsbD k else y.getLsbD k) ∧
    (fnH x y z).getLsbD k = ((x.getLsbD k ^^ y.getLsbD k) ^^ z.getLsbD k) ∧
    (fnI x y z).getLsbD k = (y.getLsbD k ^^ (x.getLsbD k || !z.getLsbD k))) ∧
  (∀ i : Fin 64,
    (i.val < 16 → roundFn i = fnF) ∧ (16 ≤ i.val → i.val < 32 → roundFn i = fnG) ∧
    (32 ≤ i.val → i.val < 48 → roundFn i = fnH) ∧ (48 ≤ i.val → roundFn i = fnI))

/-- R10: rotl is a true rotation; bits leave at one end and re-enter at the other. -/
def Obligations.RotationWraps : Prop :=
  ∀ (a : Word) (s : Nat), 1 ≤ s → s ≤ 31 →
    ∀ k < 32, (rotl a s).getLsbD ((k + s) % 32) = a.getLsbD k

/-- R174 and R175: the shift amounts and the message word of every operation; each shift lies in 4..23, and each round
uses each word exactly once. -/
def Obligations.ShiftAndWordTables : Prop :=
  (∀ i : Fin 64,
    4 ≤ romS i ∧ romS i ≤ 23 ∧
    (i.val / 16 = 0 → romS i = [7, 12, 17, 22].getD (i % 4) 0 ∧ (romK i).val = i) ∧
    (i.val / 16 = 1 → romS i = [5, 9, 14, 20].getD (i % 4) 0 ∧ (romK i).val = (5 * i + 1) % 16) ∧
    (i.val / 16 = 2 → romS i = [4, 11, 16, 23].getD (i % 4) 0 ∧ (romK i).val = (3 * i + 5) % 16) ∧
    (i.val / 16 = 3 → romS i = [6, 10, 15, 21].getD (i % 4) 0 ∧ (romK i).val = (7 * i) % 16)) ∧
  (∀ (r : Fin 4) (k : Fin 16), ∃ i : Fin 64, i.val / 16 = r.val ∧ romK i = k ∧
    ∀ j : Fin 64, j.val / 16 = r.val → romK j = k → j = i)

/-- R173: `T[i]` is `floor(2^32 * |sin(i + 1)|)`, with the argument in radians. -/
def Obligations.RoundConstantsAreSines : Prop :=
  ∀ i : Fin 64, ((romT i).toNat : Int) = ⌊(2 : Real) ^ 32 * |Real.sin ((i.val : Real) + 1)|⌋

/-- R178: the register movement of four consecutive operations is the standard's rotating naming of a, b, c and d, for
every group of a block and every X. -/
def Obligations.FourOperationsAreAStandardGroup : Prop :=
  ∀ (j : Fin 16) (x : Vector Word 16) (q : Quad),
    roundOp ⟨4 * j + 3, by omega⟩ x (roundOp ⟨4 * j + 2, by omega⟩ x
      (roundOp ⟨4 * j + 1, by omega⟩ x (roundOp ⟨4 * j, by omega⟩ x q))) = standardGroup j x q

/-- R177-R180: from the start of a block, 64 operations and the feed-forward leave in A..D the compression of the
pre-block value with X, clear X and bcnt, return to SIDLE, and change nothing else. -/
def Obligations.BlockIsCompressed : Prop :=
  ∀ e : Engine, e.seq = .round 0 → e.save = e.cv →
    e.runFor 65 = { e with
      cv := compress e.cv e.x, x := Vector.replicate 16 0#32, bcnt := 0, seq := .sidle }

/-- R179 and R210: the feed-forward and the latch, each with its frame; after the latch BUSY = 0. -/
def Obligations.FeedForwardAndLatch : Prop :=
  ∀ e : Engine,
    (e.seq = .ff → e.step = some { e with
      cv := ⟨e.cv.a + e.save.a, e.cv.b + e.save.b, e.cv.c + e.save.c, e.cv.d + e.save.d⟩
      x := Vector.replicate 16 0#32, bcnt := 0, seq := .sidle }) ∧
    (e.seq = .sidle → e.queue = [] → e.fin = true → ∃ e' : Engine, e.step = some e' ∧
      e' = { e with digest := e.cv, phase := .done, fin := false } ∧ e'.busy = false)

/-- R192: from any state the engine reaches BUSY = 0 after finitely many micro-steps and with no host action; from a
state that meets the invariant, after exactly `remaining` of them. -/
def Obligations.EngineComesToRest : Prop :=
  (∀ e : Engine, ∃ n, (e.runFor n).busy = false) ∧ (∀ e : Engine, e.Inv → e.takesSteps e.remaining)

/-- R193: the micro-steps of each accepted command. -/
def Obligations.StepCounts : Prop :=
  ∀ e : Engine, e.Inv → e.busy = false →
    (e.execute .nop).takesSteps 0 ∧ (e.execute .init).takesSteps 0 ∧
    (e.phase = .active →
      (∀ b, (e.execute (.feedb b)).takesSteps (if e.bcnt = 63 then 66 else 1)) ∧
      (∀ u, (e.execute (.feedcu u)).takesSteps
        (if e.bcnt + (utf8Bytes u).length < 64 then (utf8Bytes u).length else (utf8Bytes u).length + 65)) ∧
      (e.execute .final).takesSteps
        (9 + padZeros e.bcnt + 65 * (if e.bcnt ≤ 55 then 1 else 2) + 1) ∧
      (e.bcnt = 0 → (e.execute .final).takesSteps 130))

/-- R272: a command's latency is the sum over its micro-steps; FINAL's, for every bcnt, and the rule's example for the
empty message. -/
def Obligations.FinalLatency : Prop :=
  ∀ (t : Config.Timing) (e : Engine), e.Inv → e.busy = false → e.phase = .active →
    (e.execute .final).latency t =
      (9 + padZeros e.bcnt) * t.tAbsorb + (if e.bcnt ≤ 55 then 1 else 2) * (64 * t.tRound + t.tFf) + t.tLatch ∧
    (e.bcnt = 0 → (e.execute .final).latency t = 64 * t.tAbsorb + 64 * t.tRound + t.tFf + t.tLatch)

/-! ### The register window (spec/10_state.md, spec/20_memory.md) -/

/-- R37 and R38: the fields of STATUS and ERRINFO, as a read returns them: exact whether or not BUSY is 1, but for
BCNT, which is exact when BUSY = 0. -/
def Obligations.StatusAndErrinfoFields : Prop :=
  ∀ (s : State) (dst : Option VarName) (rest : List HostOp) (ts : List Turn), s.hostMoves ts →
    (s.pending = .read 0x04 4 dst :: rest → ∃ (t : State) (v : Word),
      step s = .next t ∧ t.reads = s.reads ++ [⟨0x04, v⟩] ∧
      v.getLsbD 0 = s.eng.busy ∧
      (v.extractLsb' 1 2).toNat = (match s.eng.phase with | .idle => 0 | .active => 1 | .done => 2) ∧
      v.getLsbD 3 = s.eng.errValid ∧ v.extractLsb' 4 4 = 0#4 ∧ v.extractLsb' 14 18 = 0#18 ∧
      (s.eng.busy = false → (v.extractLsb' 8 6).toNat = s.eng.bcnt % 64)) ∧
    (s.pending = .read 0x08 4 dst :: rest → ∃ (t : State) (v : Word),
      step s = .next t ∧ t.reads = s.reads ++ [⟨0x08, v⟩] ∧
      v.getLsbD 0 = s.eng.errValid ∧ v.getLsbD 1 = s.eng.errOvf ∧ v.extractLsb' 2 2 = 0#2 ∧
      v.extractLsb' 4 4 = s.eng.errCode ∧ v.extractLsb' 8 24 = 0#24)

/-- R54 and R107: a read of any register of the window completes, and changes no state of the engine; the registers
that are exact at all times (R36, R39, R41, R43) and those that are exact when BUSY = 0 (R40, R42) return the state they
show. Nothing is said of the others while BUSY = 1 (R56). R89: the read assigns the host variable it names, if it names
one, and no other. That the host keeps what it read in `reads` is the model's own (log 4). -/
def Obligations.ReadsReturnTheState : Prop :=
  ∀ (s : State) (r : Reg) (dst : Option VarName) (rest : List HostOp) (ts : List Turn),
    s.pending = .read r.offset 4 dst :: rest → s.hostMoves ts →
    ∃ (t : State) (v : Word), step s = .next t ∧
      t.eng = s.eng ∧ t.pending = rest ∧ t.turns = ts ∧ t.reads = s.reads ++ [⟨r.offset, v⟩] ∧
      (∀ x, varValue x t.vars = if dst = some x then some v else varValue x s.vars) ∧
      ((r = .cmd ∨ r = .reserved18 ∨ r = .reserved1C) → v = 0#32) ∧
      (r = .errcmd → v = s.eng.errCmd) ∧
      (r = .digest0 → v = s.eng.digest.a) ∧ (r = .digest1 → v = s.eng.digest.b) ∧
      (r = .digest2 → v = s.eng.digest.c) ∧ (r = .digest3 → v = s.eng.digest.d) ∧
      (s.eng.busy = false →
        (r = .lenLo → v = s.eng.len.extractLsb' 0 32) ∧ (r = .lenHi → v = s.eng.len.extractLsb' 32 32) ∧
        (r = .cvA → v = s.eng.cv.a) ∧ (r = .cvB → v = s.eng.cv.b) ∧
        (r = .cvC → v = s.eng.cv.c) ∧ (r = .cvD → v = s.eng.cv.d))

/-- R55: a write to any offset other than CMD and ERRINFO has no effect, and raises no error. -/
def Obligations.OtherWritesHaveNoEffect : Prop :=
  ∀ (s : State) (off : Nat) (v : Word) (rest : List HostOp) (ts : List Turn),
    s.pending = .write off 4 v :: rest → s.hostMoves ts →
    off % 4 = 0 → off < 64 → off ≠ 0x00 → off ≠ 0x08 → step s = .next (s.popped rest ts)

/-- R52, R60, and B2 and B3 of spec/93_implementation_defined.md: a narrow or misaligned access of the window, and an
access outside it, are refused: no step. The two names, and which of them an access gets that both descriptions fit, are
the model's own (DESIGN CHOICE, log 6): an access at 64 or beyond is `outsideWindow` even where it is narrow or misaligned,
and one at 0x3D to 0x3F is `undefinedAccess` although it ends outside the window. -/
def Obligations.UndefinedAccessesAreRefused : Prop :=
  ∀ (s : State) (off width : Nat) (dst : Option VarName) (rest : List HostOp) (ts : List Turn),
    (s.pending = .read off width dst :: rest ∨ ∃ v, s.pending = .write off width v :: rest) → s.hostMoves ts →
    (off < 64 → (width ≠ 4 ∨ off % 4 ≠ 0) → step s = .refused .undefinedAccess) ∧
    (64 ≤ off → step s = .refused .outsideWindow)

/-- R90: WAIT polls STATUS until BUSY = 0; a poll leaves the engine as it is, and the host goes past its WAIT exactly
when it has read BUSY = 0 into `s`. One poll is one access of the host, and does not stand in `reads` (log 20). -/
def Obligations.WaitEndsWhenNotBusy : Prop :=
  ∀ (s : State) (rest : List HostOp) (ts : List Turn),
    s.pending = .wait :: rest → s.hostMoves ts →
    ∃ (t : State) (v : Word), step s = .next t ∧ t.eng = s.eng ∧ t.turns = ts ∧ t.reads = s.reads ∧
      v.getLsbD 0 = s.eng.busy ∧ (∀ x, varValue x t.vars = if x = ['s'] then some v else varValue x s.vars) ∧
      (s.eng.busy = true → t.pending = .wait :: rest) ∧ (s.eng.busy = false → t.pending = rest)

/-- R51: for a base that is a multiple of 64, the addresses of the window are its 64 bytes, bits [5:2] of an address
select the register, and each of the 16 registers stands at the offset of R35's table. -/
def Obligations.WindowDecoding : Prop :=
  (∀ base addr : Nat, Config.baseWf base →
    (∀ off, windowOffset base addr = some off ↔ addr = base + off ∧ off < 64) ∧
    (∀ off, windowOffset base addr = some off →
      addressSelect (BitVec.ofNat 32 addr) = BitVec.ofNat 4 (off / 4) ∧
      regAt (addressSelect (BitVec.ofNat 32 addr)) = regOf off)) ∧
  (∀ r : Reg, regOf r.offset = r ∧ r.offset < 64 ∧ r.offset % 4 = 0) ∧
  regOf 0x00 = .cmd ∧ regOf 0x04 = .status ∧ regOf 0x08 = .errinfo ∧ regOf 0x0C = .errcmd ∧
  regOf 0x10 = .lenLo ∧ regOf 0x14 = .lenHi ∧ regOf 0x18 = .reserved18 ∧ regOf 0x1C = .reserved1C ∧
  regOf 0x20 = .digest0 ∧ regOf 0x24 = .digest1 ∧ regOf 0x28 = .digest2 ∧ regOf 0x2C = .digest3 ∧
  regOf 0x30 = .cvA ∧ regOf 0x34 = .cvB ∧ regOf 0x38 = .cvC ∧ regOf 0x3C = .cvD

/-- R69, R8 and R260: the access that the bus pins ask for is the 32-bit read or write at offset 4 * bus_addr, of
bus_wdata; it is performed at the edge at which the handshake completes it, whatever the handshake is, and is what the
machine does next, a read returning what `bus_rdata` shows; while reset is in force, in either polarity and whatever the
synchronisation is, no access is performed and the machine resets instead. The forms of RST_POLARITY and BUS_PROTOCOL as
arguments, a reset as one turn, and that `bus_rdata` has no value where no read is performed are the model's own (DESIGN
CHOICE, logs 10, 14). -/
def Obligations.PinsDriveTheMachine : Prop :=
  ∀ (cfg : Config.Signals) (past : List Pins) (now : Pins) (s : State),
    let inForce := cfg.reset.sync ((now :: past).map fun p =>
      match cfg.reset.polarity with | .activeHigh => p.rst | .activeLow => !p.rst)
    let completes := cfg.bus.completes (now :: past)
    (now.bus.sel = true → now.bus.we = true →
      busOp now.bus = some (.write (4 * now.bus.addr.toNat) 4 now.bus.wdata)) ∧
    (now.bus.sel = true → now.bus.we = false → busOp now.bus = some (.read (4 * now.bus.addr.toNat) 4 none)) ∧
    (now.bus.sel = false → busOp now.bus = none) ∧
    (∀ op, busOp now.bus = some op → op.wf = true) ∧
    (inForce = true → step (s.drive cfg past now) = .next (resetEvent s) ∧ busRdata cfg past now s = none) ∧
    (∀ op, inForce = false → completes = true → busOp now.bus = some op →
      step (s.drive cfg past now) = hostTurn { s with pending := op :: s.pending }) ∧
    (inForce = false → (completes = false ∨ now.bus.sel = false) → s.drive cfg past now = s) ∧
    (∀ v, busRdata cfg past now s = some v → ∃ t : State,
      step (s.drive cfg past now) = .next t ∧ t.eng = s.eng ∧ t.pending = s.pending ∧
        t.reads = s.reads ++ [⟨4 * now.bus.addr.toNat, v⟩]) ∧
    (busReady cfg past now = some true ↔ inForce = false ∧ completes = true ∧ now.bus.sel = true)

/-! ### Reset and invariants (spec/10_state.md R45, R46, spec/70_reset_and_hazards.md) -/

/-- R46, R260, R262: reset may come in any state and sets every element to its reset value in one transition; then every
register reads 0, BUSY is 0 and PHASE is IDLE. That the host's operations and the other turns stay as they are is the
model's own (DESIGN CHOICE, log 10). -/
def Obligations.ResetSetsEverything : Prop :=
  (∀ (s : State) (ts : List Turn), s.turns = .reset :: ts → ∃ t : State,
    step s = .next t ∧ t.pending = s.pending ∧ t.turns = ts ∧
    t.eng.phase = .idle ∧ t.eng.cv = ⟨0#32, 0#32, 0#32, 0#32⟩ ∧ t.eng.save = ⟨0#32, 0#32, 0#32, 0#32⟩ ∧
    t.eng.x = Vector.replicate 16 0#32 ∧ t.eng.bcnt = 0 ∧ t.eng.seq = .sidle ∧ t.eng.queue = [] ∧
    t.eng.fin = false ∧ t.eng.len = 0#64 ∧ t.eng.digest = ⟨0#32, 0#32, 0#32, 0#32⟩ ∧
    t.eng.errValid = false ∧ t.eng.errOvf = false ∧ t.eng.errCode = 0#4 ∧ t.eng.errCmd = 0#32 ∧
    t.eng = State.reset.eng) ∧
  (∀ r : Reg, State.reset.eng.regValue r = 0#32) ∧ State.reset.eng.busy = false

/-- The invariant holds after reset. -/
def Obligations.ResetMeetsTheInvariant : Prop := State.reset.eng.Inv

/-- Every step keeps the invariant, from every state that meets it, whatever the host does and whoever moves. -/
def Obligations.StepKeepsTheInvariant : Prop :=
  ∀ s t : State, s.eng.Inv → step s = .next t → t.eng.Inv

/-- R45: (I1)-(I7) hold in every reachable state: after any number of steps from reset, with any host program and any
order of turns. The host's part of the state is the model's own (logs 1, 3). -/
def Obligations.ReachableStatesMeetR45 : Prop :=
  ∀ (pending : List HostOp) (turns : List Turn) (n : Nat) (t : State),
    Sys2Proof.core.run n { State.reset with pending := pending, turns := turns } = .next t → t.eng.SpecInv

/-! ### Who writes what -/

/-- R211: DIGEST[0..3] keep their value through every step but the latch, which copies A..D, and reset. -/
def Obligations.DigestIsRetained : Prop :=
  ∀ s t : State, step s = .next t →
    t.eng.digest = s.eng.digest ∨
    (s.eng.seq = .sidle ∧ s.eng.queue = [] ∧ s.eng.fin = true ∧ t.eng = s.eng.latch ∧ t.eng.digest = s.eng.cv) ∨
    (∃ ts, s.turns = .reset :: ts ∧ t.eng = Engine.reset)

/-- R21: `phase` is changed only by reset, to IDLE, by an accepted INIT, to ACTIVE, and by the latch, to DONE. -/
def Obligations.PhaseTransitions : Prop :=
  ∀ s t : State, step s = .next t → t.eng.phase ≠ s.eng.phase →
    ((∃ ts, s.turns = .reset :: ts) ∧ t.eng.phase = .idle) ∨
    (s.eng.busy = false ∧ t.eng.phase = .active ∧
      ∃ rest ts, s.pending = .write 0x00 4 0x00000001#32 :: rest ∧ s.hostMoves ts) ∨
    (s.eng.enabled = some .latch ∧ s.eng.step = some t.eng ∧ t.eng = s.eng.latch ∧ t.eng.phase = .done)

/-- R27: `seq` moves only by micro-steps, and only as the rule lists, or by reset. -/
def Obligations.SequencerTransitions : Prop :=
  ∀ s t : State, step s = .next t → t.eng.seq ≠ s.eng.seq →
    ((∃ ts, s.turns = .reset :: ts) ∧ t.eng.seq = .sidle) ∨
    (s.eng.step = some t.eng ∧
      ((s.eng.seq = .sidle ∧ s.eng.bcnt = 63 ∧ t.eng.seq = .round 0) ∨
       (∃ i j : Fin 64, s.eng.seq = .round i ∧ j.val = i.val + 1 ∧ t.eng.seq = .round j) ∨
       (s.eng.seq = .round 63 ∧ t.eng.seq = .ff) ∨ (s.eng.seq = .ff ∧ t.eng.seq = .sidle)))

/-- R22, R23, R25: A..D are written by INIT (the IV), a round operation and the feed-forward; AA..DD only when a block
becomes full; X only by Absorb, the byte of R137 and no other, and cleared by INIT and the feed-forward; and all of them
by reset. When the host moves is the model's own (log 1). -/
def Obligations.WorkingRegisterWriters : Prop :=
  ∀ s t : State, step s = .next t → (∀ ts, s.turns ≠ .reset :: ts) →
    (t.eng.cv ≠ s.eng.cv →
      (s.eng.busy = false ∧ t.eng.cv = iv ∧
        ∃ rest ts, s.pending = .write 0x00 4 0x00000001#32 :: rest ∧ s.hostMoves ts) ∨
      (s.eng.step = some t.eng ∧
        ((∃ i, s.eng.seq = .round i ∧ t.eng.cv = roundOp i s.eng.x s.eng.cv) ∨
         (s.eng.seq = .ff ∧ t.eng.cv = s.eng.cv.add s.eng.save)))) ∧
    (t.eng.save ≠ s.eng.save →
      s.eng.step = some t.eng ∧ s.eng.enabled = some .absorb ∧ s.eng.bcnt = 63 ∧ t.eng.save = s.eng.cv) ∧
    (t.eng.x ≠ s.eng.x →
      (s.eng.step = some t.eng ∧ s.eng.seq = .sidle ∧ ∃ q rest, s.eng.queue = q :: rest ∧ t.eng.queue = rest ∧
        ∀ p : Fin 64, byteOf (t.eng.x.get ⟨p / 4, by omega⟩) (p % 4) =
          if p.val = s.eng.bcnt then q.byte else byteOf (s.eng.x.get ⟨p / 4, by omega⟩) (p % 4)) ∨
      (t.eng.x = Vector.replicate 16 0#32 ∧
        ((s.eng.seq = .ff ∧ s.eng.step = some t.eng) ∨
         (s.eng.busy = false ∧ ∃ rest ts, s.pending = .write 0x00 4 0x00000001#32 :: rest ∧ s.hostMoves ts))))

/-- R216: in phase DONE, CV_A..CV_D read the same values as DIGEST0..DIGEST3, and exactly, since BUSY is 0. -/
def Obligations.CvReadsTheDigestWhenDone : Prop :=
  ∀ e : Engine, e.Inv → e.phase = .done →
    e.busy = false ∧
    e.regValue .cvA = e.regValue .digest0 ∧ e.regValue .cvB = e.regValue .digest1 ∧
    e.regValue .cvC = e.regValue .digest2 ∧ e.regValue .cvD = e.regValue .digest3 ∧
    ∀ n r, e.readValue n r = e.regValue r

/-! ### The digest (spec/40_commands.md R109-R111, spec/44_digest_output.md) -/

/-- An accepted INIT starts the empty message, and an accepted FEEDCU or FEEDB, once the engine has come to rest, has
added its bytes to the message (R102-R104, R137-R142, R179). -/
def Obligations.FeedingExtendsTheMessage : Prop :=
  (∀ e : Engine, e.busy = false → (e.execute .init).Holds []) ∧
  (∀ (e : Engine) (m : List Byte), e.Holds m →
    (∀ u, (e.execute (.feedcu u)).settle.Holds (m ++ utf8Bytes u)) ∧
    (∀ b, (e.execute (.feedb b)).settle.Holds (m ++ [b])))

/-- R157, R210: an accepted FINAL, once the engine has come to rest, has latched the MD5 of the message, and leaves
phase DONE, A..D equal to DIGEST, bcnt and X zero, and LEN and the error record as they were. -/
def Obligations.FinalLatchesTheMd5 : Prop :=
  ∀ (e : Engine) (m : List Byte), e.Holds m →
    let d := (e.execute .final).settle
    d.digest = md5 m ∧ d.cv = md5 m ∧ d.phase = .done ∧ d.busy = false ∧ d.bcnt = 0 ∧
    d.x = Vector.replicate 16 0#32 ∧ d.len = e.len ∧
    d.errValid = e.errValid ∧ d.errOvf = e.errOvf ∧ d.errCode = e.errCode ∧ d.errCmd = e.errCmd

/-- R109, R142, R215: from any quiescent engine, whatever came before, a context of FEEDCU and FEEDB commands in any
order, each followed by a wait, has as its digest the MD5 of the concatenation of their bytes. -/
def Obligations.ContextDigestIsMd5 : Prop :=
  ∀ (e : Engine) (is : List Instr), e.busy = false →
    (∀ i ∈ is, (∃ u, i = .feedcu u) ∨ (∃ b, i = .feedb b)) →
    let fed := is.foldl (fun e i => (e.submit (encode i)).settle) (e.submit (encode .init))
    ((fed.submit (encode .final)).settle).digest = md5 (is.flatMap messageBytes)

/-- R110: a host that waits for BUSY = 0 before every CMD write gets a result that is independent of timing: under every
order of turns without a reset, if its program is done, the engine is what the same commands make of it when the engine
comes to rest after each; and such a program gets done. That the scripted turns are finite, and that the engine moves
while BUSY = 1 once they are used up, is the model's form of R273 (log 1). -/
def Obligations.WaitingMakesTimingIrrelevant : Prop :=
  ∀ (s : State) (is : List Instr), s.eng.Inv → s.noReset → s.pending = politeProgram is →
    (∀ (n : Nat) (t : State), Sys2Proof.core.run n s = .next t → t.pending = [] →
      t.eng = is.foldl (fun e i => (e.submit (encode i)).settle) s.eng.settle) ∧
    (∃ (n : Nat) (t : State), Sys2Proof.core.run n s = .next t ∧ t.pending = [])

/-- R111 and R273: the host procedure `digest(u1..un)`, from any state that meets the invariant and under every order of
turns without a reset: it gets done, the scripted turns being finite and the engine moving while BUSY = 1 once they are
used up, which is the model's form of R273 (DESIGN CHOICE, log 1); whenever it is done, its four reads have returned the MD5 of the units'
3-byte-capped UTF-8 bytes, which HexRender writes as 32 characters of 0-9a-f; and the error record is as it was: from a
state with no rejection recorded, no command of the procedure was rejected. -/
def Obligations.DigestProcedureReturnsTheMd5 : Prop :=
  ∀ (s : State) (us : List CodeUnit), s.eng.Inv → s.noReset → s.pending = digestProcedure us →
    (∀ (n : Nat) (t : State), Sys2Proof.core.run n s = .next t → t.pending = [] →
      ∃ d : Quad, t.reads = s.reads ++ [⟨0x20, d.a⟩, ⟨0x24, d.b⟩, ⟨0x28, d.c⟩, ⟨0x2C, d.d⟩] ∧
        d = md5 (us.flatMap utf8Bytes) ∧
        (hexRender d).length = 32 ∧ (∀ c ∈ hexRender d, c ∈ hexAlphabet) ∧
        t.eng.errValid = s.eng.errValid ∧ t.eng.errOvf = s.eng.errOvf ∧
        t.eng.errCode = s.eng.errCode ∧ t.eng.errCmd = s.eng.errCmd) ∧
    (∃ (n : Nat) (t : State), Sys2Proof.core.run n s = .next t ∧ t.pending = [])

/-- R212-R214: byte 4j + k of the digest is DIGEST[j][8k+7 : 8k]; HexRender gives two characters per byte, the high
nibble first, 32 in all, each in 0-9a-f. -/
def Obligations.DigestSerialisation : Prop :=
  ∀ q : Quad,
    (∀ j k : Fin 4, (serialise q)[4 * j.val + k.val]? =
      some (([q.a, q.b, q.c, q.d].getD j 0#32).extractLsb' (8 * k) 8)) ∧
    (serialise q).length = 16 ∧
    (hexRender q).length = 32 ∧
    (∀ c ∈ hexRender q, c ∈ ['0', '1', '2', '3', '4', '5', '6', '7', '8', '9', 'a', 'b', 'c', 'd', 'e', 'f']) ∧
    (∀ (n : Nat) (b : Byte), (serialise q)[n]? = some b →
      (hexRender q)[2 * n]? = hexAlphabet[b.toNat / 16]? ∧ (hexRender q)[2 * n + 1]? = hexAlphabet[b.toNat % 16]?)

/-! ### Programs and systems -/

/-- R89: the assembler rejects a program whose operands do not fit, and every operation it assembles is an access the
engine defines. The checks on the operands of CMD, WR and RD, and the text as a list of characters, are the model's own
(log 17). R89, R90: RD, READDIGEST and DIGEST assign the variables they name. -/
def Obligations.AssembledAccessesAreDefined : Prop :=
  (∀ p : Asm, assemble p = none ↔ p.wf = false) ∧
  (∀ (p : Asm) (ops : List HostOp), assemble p = some ops → ∀ op ∈ ops, op.wf = true) ∧
  (∀ u, assemble (.feedcu u) = none ↔ 0xFFFF < u) ∧ (∀ b, assemble (.feedb b) = none ↔ 0xFF < b) ∧
  (∀ off x ops, assemble (.rd off x) = some ops → ops = [.read off 4 (some x)]) ∧
  (∀ d : DigestVars, assemble (.readdigest d) =
    some [.read 0x20 4 (some d.d0), .read 0x24 4 (some d.d1), .read 0x28 4 (some d.d2), .read 0x2C 4 (some d.d3)]) ∧
  (∀ text d, assemble (.digest text d) =
    assemble (.seq .init (.seq (.feedstr text) (.seq .final (.seq .wait (.readdigest d))))))

/-- R245: instances share nothing. A transition of one is its own step, and leaves every other as it is. A system as a
list is the model's own (log 21). -/
def Obligations.InstancesShareNothing : Prop :=
  ∀ (k : Nat) (sys sys' : System), stepAt k sys = .next sys' →
    sys'.length = sys.length ∧ (∀ j, j ≠ k → sys'[j]? = sys[j]?) ∧
    (∀ s, sys[k]? = some s → ∃ s', step s = .next s' ∧ sys'[k]? = some s')
end

