-- ==== Sys2Proof/Laws/State.lean ====
section
/-! SUPPORT. What each named update of the state does to each field, so that later proofs need not unfold it. -/

namespace Sys2Proof.Machine

/-! ### RecordError changes the error record only (R234, R235) -/

section recordError
variable (c : InvalidArgument) (w : Word) (e : Engine)

@[simp] theorem Engine.recordError_phase : (e.recordError c w).phase = e.phase := by
  unfold Engine.recordError; split <;> rfl
@[simp] theorem Engine.recordError_cv : (e.recordError c w).cv = e.cv := by
  unfold Engine.recordError; split <;> rfl
@[simp] theorem Engine.recordError_save : (e.recordError c w).save = e.save := by
  unfold Engine.recordError; split <;> rfl
@[simp] theorem Engine.recordError_x : (e.recordError c w).x = e.x := by
  unfold Engine.recordError; split <;> rfl
@[simp] theorem Engine.recordError_bcnt : (e.recordError c w).bcnt = e.bcnt := by
  unfold Engine.recordError; split <;> rfl
@[simp] theorem Engine.recordError_seq : (e.recordError c w).seq = e.seq := by
  unfold Engine.recordError; split <;> rfl
@[simp] theorem Engine.recordError_queue : (e.recordError c w).queue = e.queue := by
  unfold Engine.recordError; split <;> rfl
@[simp] theorem Engine.recordError_fin : (e.recordError c w).fin = e.fin := by
  unfold Engine.recordError; split <;> rfl
@[simp] theorem Engine.recordError_len : (e.recordError c w).len = e.len := by
  unfold Engine.recordError; split <;> rfl
@[simp] theorem Engine.recordError_digest : (e.recordError c w).digest = e.digest := by
  unfold Engine.recordError; split <;> rfl
@[simp] theorem Engine.recordError_errValid : (e.recordError c w).errValid = true := by
  unfold Engine.recordError; split <;> simp_all

end recordError

/-! ### The clear of the error record (R106) -/

section clearErrors
variable (e : Engine)

@[simp] theorem Engine.clearErrors_phase : e.clearErrors.phase = e.phase := rfl
@[simp] theorem Engine.clearErrors_cv : e.clearErrors.cv = e.cv := rfl
@[simp] theorem Engine.clearErrors_save : e.clearErrors.save = e.save := rfl
@[simp] theorem Engine.clearErrors_x : e.clearErrors.x = e.x := rfl
@[simp] theorem Engine.clearErrors_bcnt : e.clearErrors.bcnt = e.bcnt := rfl
@[simp] theorem Engine.clearErrors_seq : e.clearErrors.seq = e.seq := rfl
@[simp] theorem Engine.clearErrors_queue : e.clearErrors.queue = e.queue := rfl
@[simp] theorem Engine.clearErrors_fin : e.clearErrors.fin = e.fin := rfl
@[simp] theorem Engine.clearErrors_len : e.clearErrors.len = e.len := rfl
@[simp] theorem Engine.clearErrors_digest : e.clearErrors.digest = e.digest := rfl
@[simp] theorem Engine.clearErrors_errValid : e.clearErrors.errValid = false := rfl
@[simp] theorem Engine.clearErrors_errOvf : e.clearErrors.errOvf = false := rfl
@[simp] theorem Engine.clearErrors_errCode : e.clearErrors.errCode = 0 := rfl
@[simp] theorem Engine.clearErrors_errCmd : e.clearErrors.errCmd = 0 := rfl

end clearErrors

/-! ### Queueing (R136) -/

section enqueue
variable (qs : List QEntry) (e : Engine)

@[simp] theorem Engine.enqueue_phase : (e.enqueue qs).phase = e.phase := rfl
@[simp] theorem Engine.enqueue_cv : (e.enqueue qs).cv = e.cv := rfl
@[simp] theorem Engine.enqueue_save : (e.enqueue qs).save = e.save := rfl
@[simp] theorem Engine.enqueue_x : (e.enqueue qs).x = e.x := rfl
@[simp] theorem Engine.enqueue_bcnt : (e.enqueue qs).bcnt = e.bcnt := rfl
@[simp] theorem Engine.enqueue_seq : (e.enqueue qs).seq = e.seq := rfl
@[simp] theorem Engine.enqueue_queue : (e.enqueue qs).queue = e.queue ++ qs := rfl
@[simp] theorem Engine.enqueue_fin : (e.enqueue qs).fin = e.fin := rfl
@[simp] theorem Engine.enqueue_len : (e.enqueue qs).len = e.len := rfl
@[simp] theorem Engine.enqueue_digest : (e.enqueue qs).digest = e.digest := rfl
@[simp] theorem Engine.enqueue_errValid : (e.enqueue qs).errValid = e.errValid := rfl
@[simp] theorem Engine.enqueue_errOvf : (e.enqueue qs).errOvf = e.errOvf := rfl
@[simp] theorem Engine.enqueue_errCode : (e.enqueue qs).errCode = e.errCode := rfl
@[simp] theorem Engine.enqueue_errCmd : (e.enqueue qs).errCmd = e.errCmd := rfl

end enqueue

/-! ### INIT (R102) -/

section startContext
variable (e : Engine)

@[simp] theorem Engine.startContext_phase : e.startContext.phase = .active := rfl
@[simp] theorem Engine.startContext_cv : e.startContext.cv = iv := rfl
@[simp] theorem Engine.startContext_save : e.startContext.save = e.save := rfl
@[simp] theorem Engine.startContext_x : e.startContext.x = Vector.replicate 16 0 := rfl
@[simp] theorem Engine.startContext_bcnt : e.startContext.bcnt = 0 := rfl
@[simp] theorem Engine.startContext_seq : e.startContext.seq = e.seq := rfl
@[simp] theorem Engine.startContext_queue : e.startContext.queue = e.queue := rfl
@[simp] theorem Engine.startContext_fin : e.startContext.fin = e.fin := rfl
@[simp] theorem Engine.startContext_len : e.startContext.len = 0 := rfl
@[simp] theorem Engine.startContext_digest : e.startContext.digest = e.digest := rfl
@[simp] theorem Engine.startContext_errValid : e.startContext.errValid = e.errValid := rfl
@[simp] theorem Engine.startContext_errOvf : e.startContext.errOvf = e.errOvf := rfl
@[simp] theorem Engine.startContext_errCode : e.startContext.errCode = e.errCode := rfl
@[simp] theorem Engine.startContext_errCmd : e.startContext.errCmd = e.errCmd := rfl

end startContext

/-! ### FINAL (R105) -/

section finish
variable (e : Engine)

@[simp] theorem Engine.finish_phase : e.finish.phase = e.phase := rfl
@[simp] theorem Engine.finish_cv : e.finish.cv = e.cv := rfl
@[simp] theorem Engine.finish_save : e.finish.save = e.save := rfl
@[simp] theorem Engine.finish_x : e.finish.x = e.x := rfl
@[simp] theorem Engine.finish_bcnt : e.finish.bcnt = e.bcnt := rfl
@[simp] theorem Engine.finish_seq : e.finish.seq = e.seq := rfl
@[simp] theorem Engine.finish_queue :
    e.finish.queue = e.queue ++ paddingEntries (padBytes (padZeros e.bcnt) e.len) := rfl
@[simp] theorem Engine.finish_fin : e.finish.fin = true := rfl
@[simp] theorem Engine.finish_len : e.finish.len = e.len := rfl
@[simp] theorem Engine.finish_digest : e.finish.digest = e.digest := rfl
@[simp] theorem Engine.finish_errValid : e.finish.errValid = e.errValid := rfl
@[simp] theorem Engine.finish_errOvf : e.finish.errOvf = e.errOvf := rfl
@[simp] theorem Engine.finish_errCode : e.finish.errCode = e.errCode := rfl
@[simp] theorem Engine.finish_errCmd : e.finish.errCmd = e.errCmd := rfl

end finish

/-! ### The micro-steps (R137, R140, R177, R179, R210) -/

section microsteps
variable (q : QEntry) (rest : List QEntry) (i : Fin 64) (e : Engine)

@[simp] theorem Engine.takeByte_phase : (e.takeByte q rest).phase = e.phase := rfl
@[simp] theorem Engine.takeByte_cv : (e.takeByte q rest).cv = e.cv := rfl
@[simp] theorem Engine.takeByte_save : (e.takeByte q rest).save = e.save := rfl
@[simp] theorem Engine.takeByte_x : (e.takeByte q rest).x = putByte e.x e.bcnt q.byte := rfl
@[simp] theorem Engine.takeByte_bcnt : (e.takeByte q rest).bcnt = e.bcnt + 1 := rfl
@[simp] theorem Engine.takeByte_seq : (e.takeByte q rest).seq = e.seq := rfl
@[simp] theorem Engine.takeByte_queue : (e.takeByte q rest).queue = rest := rfl
@[simp] theorem Engine.takeByte_fin : (e.takeByte q rest).fin = e.fin := rfl
@[simp] theorem Engine.takeByte_len :
    (e.takeByte q rest).len = if q.counted then e.len + 8 else e.len := rfl
@[simp] theorem Engine.takeByte_digest : (e.takeByte q rest).digest = e.digest := rfl
@[simp] theorem Engine.takeByte_errValid : (e.takeByte q rest).errValid = e.errValid := rfl
@[simp] theorem Engine.takeByte_errOvf : (e.takeByte q rest).errOvf = e.errOvf := rfl
@[simp] theorem Engine.takeByte_errCode : (e.takeByte q rest).errCode = e.errCode := rfl
@[simp] theorem Engine.takeByte_errCmd : (e.takeByte q rest).errCmd = e.errCmd := rfl

@[simp] theorem Engine.startBlock_phase : e.startBlock.phase = e.phase := rfl
@[simp] theorem Engine.startBlock_cv : e.startBlock.cv = e.cv := rfl
@[simp] theorem Engine.startBlock_save : e.startBlock.save = e.cv := rfl
@[simp] theorem Engine.startBlock_x : e.startBlock.x = e.x := rfl
@[simp] theorem Engine.startBlock_bcnt : e.startBlock.bcnt = e.bcnt := rfl
@[simp] theorem Engine.startBlock_seq : e.startBlock.seq = .round 0 := rfl
@[simp] theorem Engine.startBlock_queue : e.startBlock.queue = e.queue := rfl
@[simp] theorem Engine.startBlock_fin : e.startBlock.fin = e.fin := rfl
@[simp] theorem Engine.startBlock_len : e.startBlock.len = e.len := rfl
@[simp] theorem Engine.startBlock_digest : e.startBlock.digest = e.digest := rfl
@[simp] theorem Engine.startBlock_errValid : e.startBlock.errValid = e.errValid := rfl
@[simp] theorem Engine.startBlock_errOvf : e.startBlock.errOvf = e.errOvf := rfl
@[simp] theorem Engine.startBlock_errCode : e.startBlock.errCode = e.errCode := rfl
@[simp] theorem Engine.startBlock_errCmd : e.startBlock.errCmd = e.errCmd := rfl

@[simp] theorem Engine.round_phase : (e.round i).phase = e.phase := rfl
@[simp] theorem Engine.round_cv : (e.round i).cv = roundOp i e.x e.cv := rfl
@[simp] theorem Engine.round_save : (e.round i).save = e.save := rfl
@[simp] theorem Engine.round_x : (e.round i).x = e.x := rfl
@[simp] theorem Engine.round_bcnt : (e.round i).bcnt = e.bcnt := rfl
@[simp] theorem Engine.round_seq : (e.round i).seq = nextSeq i := rfl
@[simp] theorem Engine.round_queue : (e.round i).queue = e.queue := rfl
@[simp] theorem Engine.round_fin : (e.round i).fin = e.fin := rfl
@[simp] theorem Engine.round_len : (e.round i).len = e.len := rfl
@[simp] theorem Engine.round_digest : (e.round i).digest = e.digest := rfl
@[simp] theorem Engine.round_errValid : (e.round i).errValid = e.errValid := rfl
@[simp] theorem Engine.round_errOvf : (e.round i).errOvf = e.errOvf := rfl
@[simp] theorem Engine.round_errCode : (e.round i).errCode = e.errCode := rfl
@[simp] theorem Engine.round_errCmd : (e.round i).errCmd = e.errCmd := rfl

@[simp] theorem Engine.feedForward_phase : e.feedForward.phase = e.phase := rfl
@[simp] theorem Engine.feedForward_cv : e.feedForward.cv = e.cv.add e.save := rfl
@[simp] theorem Engine.feedForward_save : e.feedForward.save = e.save := rfl
@[simp] theorem Engine.feedForward_x : e.feedForward.x = Vector.replicate 16 0 := rfl
@[simp] theorem Engine.feedForward_bcnt : e.feedForward.bcnt = 0 := rfl
@[simp] theorem Engine.feedForward_seq : e.feedForward.seq = .sidle := rfl
@[simp] theorem Engine.feedForward_queue : e.feedForward.queue = e.queue := rfl
@[simp] theorem Engine.feedForward_fin : e.feedForward.fin = e.fin := rfl
@[simp] theorem Engine.feedForward_len : e.feedForward.len = e.len := rfl
@[simp] theorem Engine.feedForward_digest : e.feedForward.digest = e.digest := rfl
@[simp] theorem Engine.feedForward_errValid : e.feedForward.errValid = e.errValid := rfl
@[simp] theorem Engine.feedForward_errOvf : e.feedForward.errOvf = e.errOvf := rfl
@[simp] theorem Engine.feedForward_errCode : e.feedForward.errCode = e.errCode := rfl
@[simp] theorem Engine.feedForward_errCmd : e.feedForward.errCmd = e.errCmd := rfl

@[simp] theorem Engine.latch_phase : e.latch.phase = .done := rfl
@[simp] theorem Engine.latch_cv : e.latch.cv = e.cv := rfl
@[simp] theorem Engine.latch_save : e.latch.save = e.save := rfl
@[simp] theorem Engine.latch_x : e.latch.x = e.x := rfl
@[simp] theorem Engine.latch_bcnt : e.latch.bcnt = e.bcnt := rfl
@[simp] theorem Engine.latch_seq : e.latch.seq = e.seq := rfl
@[simp] theorem Engine.latch_queue : e.latch.queue = e.queue := rfl
@[simp] theorem Engine.latch_fin : e.latch.fin = false := rfl
@[simp] theorem Engine.latch_len : e.latch.len = e.len := rfl
@[simp] theorem Engine.latch_digest : e.latch.digest = e.cv := rfl
@[simp] theorem Engine.latch_errValid : e.latch.errValid = e.errValid := rfl
@[simp] theorem Engine.latch_errOvf : e.latch.errOvf = e.errOvf := rfl
@[simp] theorem Engine.latch_errCode : e.latch.errCode = e.errCode := rfl
@[simp] theorem Engine.latch_errCmd : e.latch.errCmd = e.errCmd := rfl

end microsteps

/-! ### Reads of the host (R54): only the draw counter moves -/

section readReg
variable (r : Reg) (s : State)

@[simp] theorem readReg_eng : (readReg r s).2.eng = s.eng := by unfold readReg; split <;> rfl
@[simp] theorem readReg_pending : (readReg r s).2.pending = s.pending := by unfold readReg; split <;> rfl
@[simp] theorem readReg_turns : (readReg r s).2.turns = s.turns := by unfold readReg; split <;> rfl
@[simp] theorem readReg_reads : (readReg r s).2.reads = s.reads := by unfold readReg; split <;> rfl
@[simp] theorem readReg_value : (readReg r s).1 = s.eng.readValue s.draws r := rfl
@[simp] theorem readReg_draws :
    (readReg r s).2.draws = if s.eng.draws r then s.draws + 1 else s.draws := by
  simp only [readReg]; split <;> rfl

@[simp] theorem readReg_vars : (readReg r s).2.vars = s.vars := by unfold readReg; split <;> rfl

variable (off : Nat) (dst : Option VarName)

@[simp] theorem readOp_eng : (readOp off dst r s).eng = s.eng := by simp [readOp]
@[simp] theorem readOp_pending : (readOp off dst r s).pending = s.pending := by simp [readOp]
@[simp] theorem readOp_turns : (readOp off dst r s).turns = s.turns := by simp [readOp]
@[simp] theorem readOp_reads :
    (readOp off dst r s).reads = s.reads ++ [⟨off, s.eng.readValue s.draws r⟩] := by simp [readOp]
@[simp] theorem readOp_vars :
    (readOp off dst r s).vars = assign dst (s.eng.readValue s.draws r) s.vars := by simp [readOp]

@[simp] theorem pollOp_eng (rest : List HostOp) : (pollOp rest s).eng = s.eng := by simp [pollOp]
@[simp] theorem pollOp_turns (rest : List HostOp) : (pollOp rest s).turns = s.turns := by simp [pollOp]
@[simp] theorem pollOp_reads (rest : List HostOp) : (pollOp rest s).reads = s.reads := by simp [pollOp]
@[simp] theorem pollOp_vars (rest : List HostOp) :
    (pollOp rest s).vars = assign (some pollVar) (s.eng.readValue s.draws .status) s.vars := by simp [pollOp]

end readReg

/-! ### Reset (R260) -/

section resetEvent
variable (s : State)

@[simp] theorem resetEvent_eng : (resetEvent s).eng = .reset := rfl
@[simp] theorem resetEvent_pending : (resetEvent s).pending = s.pending := rfl
@[simp] theorem resetEvent_turns : (resetEvent s).turns = s.turns := rfl
@[simp] theorem resetEvent_reads : (resetEvent s).reads = s.reads := rfl
@[simp] theorem resetEvent_vars : (resetEvent s).vars = s.vars := rfl
@[simp] theorem resetEvent_draws : (resetEvent s).draws = s.draws := rfl

end resetEvent

end Sys2Proof.Machine
end

