-- ==== Sys2Proof/Laws/Ops.lean ====
section
/-! SUPPORT. What each shared operation can do, said once: BUSY, the boundary check, the micro-steps, the accesses and
the step of the whole machine. Later proofs cite these instead of unfolding the operations. -/

namespace Sys2Proof.Machine

/-! ### BUSY (R34) -/

theorem Engine.busy_eq_false_iff (e : Engine) :
    e.busy = false ↔ e.seq = .sidle ∧ e.queue = [] ∧ e.fin = false := by
  simp [Engine.busy, Bool.or_eq_false_iff, and_assoc]

theorem Engine.busy_eq_true_iff (e : Engine) :
    e.busy = true ↔ e.seq ≠ .sidle ∨ e.queue ≠ [] ∨ e.fin = true := by
  simp [Engine.busy, or_assoc]

/-- BUSY depends on `seq`, Q and `fin` only. -/
theorem Engine.busy_congr {e e' : Engine} (hs : e'.seq = e.seq) (hq : e'.queue = e.queue) (hf : e'.fin = e.fin) :
    e'.busy = e.busy := by
  simp [Engine.busy, hs, hq, hf]

@[simp] theorem Engine.recordError_busy (c : InvalidArgument) (w : Word) (e : Engine) :
    (e.recordError c w).busy = e.busy := Engine.busy_congr (by simp) (by simp) (by simp)

@[simp] theorem Engine.clearErrors_busy (e : Engine) : e.clearErrors.busy = e.busy :=
  Engine.busy_congr (by simp) (by simp) (by simp)

@[simp] theorem Engine.startContext_busy (e : Engine) : e.startContext.busy = e.busy :=
  Engine.busy_congr (by simp) (by simp) (by simp)

/-! ### The error record (R234) -/

theorem Engine.recordError_of_clear {e : Engine} (h : e.errValid = false) (c : InvalidArgument) (w : Word) :
    e.recordError c w = { e with errValid := true, errCode := codeOf c, errCmd := w } := by
  simp [Engine.recordError, h]

theorem Engine.recordError_of_valid {e : Engine} (h : e.errValid = true) (c : InvalidArgument) (w : Word) :
    e.recordError c w = { e with errOvf := true } := by
  simp [Engine.recordError, h]

/-! ### The boundary check and the commands (R100, R231) -/

theorem rejection_of_busy {e : Engine} (h : e.busy = true) (i : Instr) : rejection i e = some .busy := by
  simp [rejection, h]

theorem rejection_of_phase {e : Engine} {i : Instr} (hb : e.busy = false) (hn : needsActive i = true)
    (hp : e.phase ≠ .active) : rejection i e = some .phase := by
  simp [rejection, hb, hn, hp]

theorem rejection_of_active {e : Engine} (hb : e.busy = false) (hp : e.phase = .active) (i : Instr) :
    rejection i e = none := by
  simp [rejection, hb, hp]

theorem rejection_of_any_phase {e : Engine} {i : Instr} (hb : e.busy = false) (hn : needsActive i = false) :
    rejection i e = none := by
  simp [rejection, hb, hn]

/-- A command is accepted only by an engine that is not busy. -/
theorem busy_of_rejection_none {e : Engine} {i : Instr} (h : rejection i e = none) : e.busy = false := by
  unfold rejection at h
  split at h <;> simp_all

/-- FEEDCU, FEEDB and FINAL are accepted in phase ACTIVE only. -/
theorem active_of_rejection_none {e : Engine} {i : Instr} (h : rejection i e = none) (hn : needsActive i = true) :
    e.phase = .active := by
  unfold rejection at h
  by_contra hp
  split at h <;> simp_all

/-- What submitting a command does to the engine: a rejection, or the command's pseudocode. -/
theorem Engine.issue_cases (i : Instr) (f : Engine → Engine) (e : Engine) :
    (∃ c, rejection i e = some c ∧ e.issue i f = e.recordError c (encode i)) ∨
    (rejection i e = none ∧ e.issue i f = f e) := by
  cases h : rejection i e with
  | some c => exact .inl ⟨c, rfl, by simp [Engine.issue, h]⟩
  | none => exact .inr ⟨rfl, by simp [Engine.issue, h]⟩

/-- Every command always gives a next state, in which only the engine differs. -/
theorem exec_eq (i : Instr) (s : State) :
    exec i s = .next { s with eng := s.eng.issue i (Engine.execute i) } := by
  cases i <;> rfl

/-! ### The engine's micro-steps (R190) -/

/-- What one micro-step can be, with its guard. -/
theorem Engine.step_cases {e e' : Engine} (h : e.step = some e') :
    (∃ i, e.seq = .round i ∧ e' = e.round i) ∨
    (e.seq = .ff ∧ e' = e.feedForward) ∨
    (∃ q rest, e.seq = .sidle ∧ e.queue = q :: rest ∧ e.bcnt + 1 ≠ 64 ∧ e' = e.takeByte q rest) ∨
    (∃ q rest, e.seq = .sidle ∧ e.queue = q :: rest ∧ e.bcnt + 1 = 64 ∧ e' = (e.takeByte q rest).startBlock) ∨
    (e.seq = .sidle ∧ e.queue = [] ∧ e.fin = true ∧ e' = e.latch) := by
  unfold Engine.step Engine.enabled at h
  cases hs : e.seq with
  | round i => simp [hs, MicroStep.run] at h; exact .inl ⟨i, rfl, h.symm⟩
  | ff => simp [hs, MicroStep.run] at h; exact .inr (.inl ⟨rfl, h.symm⟩)
  | sidle =>
    cases hq : e.queue with
    | nil =>
      by_cases hf : e.fin = true
      · simp [hs, hq, hf, MicroStep.run] at h; simp [hf, h]
      · simp [hs, hq, hf] at h
    | cons q rest =>
      simp only [hs, hq, MicroStep.run, Engine.absorb, ne_eq, reduceCtorEq, not_false_eq_true, if_true,
        Option.map_some, Option.some.injEq] at h
      by_cases hb : e.bcnt + 1 = 64
      · rw [if_pos hb] at h
        exact .inr (.inr (.inr (.inl ⟨q, rest, rfl, rfl, hb, h.symm⟩)))
      · rw [if_neg hb] at h
        exact .inr (.inr (.inl ⟨q, rest, rfl, rfl, hb, h.symm⟩))

theorem Engine.step_round {e : Engine} {i : Fin 64} (h : e.seq = .round i) : e.step = some (e.round i) := by
  simp [Engine.step, Engine.enabled, h, MicroStep.run]

theorem Engine.step_ff {e : Engine} (h : e.seq = .ff) : e.step = some e.feedForward := by
  simp [Engine.step, Engine.enabled, h, MicroStep.run]

theorem Engine.step_absorb {e : Engine} {q : QEntry} {rest : List QEntry} (hs : e.seq = .sidle)
    (hq : e.queue = q :: rest) (hb : e.bcnt + 1 ≠ 64) : e.step = some (e.takeByte q rest) := by
  simp [Engine.step, Engine.enabled, hs, hq, MicroStep.run, Engine.absorb, hb]

theorem Engine.step_absorb_full {e : Engine} {q : QEntry} {rest : List QEntry} (hs : e.seq = .sidle)
    (hq : e.queue = q :: rest) (hb : e.bcnt + 1 = 64) : e.step = some (e.takeByte q rest).startBlock := by
  simp [Engine.step, Engine.enabled, hs, hq, MicroStep.run, Engine.absorb, hb]

theorem Engine.step_latch {e : Engine} (hs : e.seq = .sidle) (hq : e.queue = []) (hf : e.fin = true) :
    e.step = some e.latch := by
  simp [Engine.step, Engine.enabled, hs, hq, hf, MicroStep.run]

theorem Engine.step_quiescent {e : Engine} (h : e.busy = false) : e.step = none := by
  obtain ⟨hs, hq, hf⟩ := (Engine.busy_eq_false_iff e).1 h
  simp [Engine.step, Engine.enabled, hs, hq, hf]

/-- An engine that has taken its steps takes no more. -/
theorem Engine.runFor_quiescent {e : Engine} (h : e.busy = false) (n : Nat) : e.runFor n = e := by
  cases n <;> simp [Engine.runFor, Engine.step_quiescent h]

theorem Engine.runFor_succ {e e' : Engine} (h : e.step = some e') (n : Nat) : e.runFor (n + 1) = e'.runFor n := by
  simp [Engine.runFor, h]

theorem Engine.runFor_add (m n : Nat) (e : Engine) : e.runFor (m + n) = (e.runFor m).runFor n := by
  induction m generalizing e with
  | zero => simp [Engine.runFor]
  | succ m ih =>
    rw [Nat.add_right_comm]
    cases h : e.step with
    | some e' => rw [Engine.runFor_succ h, Engine.runFor_succ h, ih]
    | none => cases n <;> simp [Engine.runFor, h]

/-- A micro-step never touches the error record. -/
theorem Engine.step_errors {e e' : Engine} (h : e.step = some e') :
    e'.errValid = e.errValid ∧ e'.errOvf = e.errOvf ∧ e'.errCode = e.errCode ∧ e'.errCmd = e.errCmd := by
  obtain ⟨i, -, rfl⟩ | ⟨-, rfl⟩ | ⟨q, rest, -, -, -, rfl⟩ | ⟨q, rest, -, -, -, rfl⟩ | ⟨-, -, -, rfl⟩ :=
    Engine.step_cases h <;> simp

/-! ### Accesses (R52, R54, R55, R90) -/

/-- Bit 0 of STATUS is BUSY, whatever BCNT shows (R37). -/
@[simp] theorem statusWord_bit0 (e : Engine) (b : BitVec 6) : (statusWord e b)[0] = e.busy := by
  simp [statusWord, place]

/-- Bit 0 of what a read of STATUS returns is BUSY, exact at all times (R37, R56). -/
theorem readValue_status_bit0 (e : Engine) (n : Nat) : (e.readValue n .status).getLsbD 0 = e.busy := by
  unfold Engine.readValue Engine.regValue; split <;> simp

/-- A poll stays at its WAIT exactly while BUSY = 1 (R90). -/
theorem pollOp_pending (rest : List HostOp) (s : State) :
    (pollOp rest s).pending = if s.eng.busy then .wait :: rest else rest := by
  simp only [pollOp, readReg_value, readValue_status_bit0]

/-! ### The host's variables (R89) -/

theorem assign_wf {vs : List HostVar} (h : varsWf vs) (dst : Option VarName) (v : Word) : varsWf (assign dst v vs) := by
  cases dst with
  | none => exact h
  | some x =>
    have hs : ((vs.filter fun p => !(p.name == x)).map HostVar.name).Nodup :=
      h.sublist (List.filter_sublist.map _)
    simp only [varsWf, assign, List.map_append, List.map_cons, List.map_nil]
    refine hs.append (List.nodup_singleton x) fun y hy hx => ?_
    simp only [List.mem_map, List.mem_filter, Bool.not_eq_true', beq_eq_false_iff_ne] at hy
    obtain ⟨p, ⟨-, hp⟩, rfl⟩ := hy
    exact hp (List.mem_singleton.1 hx)

/-- A variable has the value last assigned to it. -/
theorem varValue_assign_self (x : VarName) (v : Word) (vs : List HostVar) :
    varValue x (assign (some x) v vs) = some v := by
  have h : (vs.filter fun p => !(p.name == x)).find? (fun p => p.name == x) = none := by
    simp [List.find?_eq_none]
  simp [varValue, assign, List.find?_append, h]

/-- An assignment leaves every other variable as it is. -/
theorem varValue_assign_other {x y : VarName} (h : y ≠ x) (v : Word) (vs : List HostVar) :
    varValue y (assign (some x) v vs) = varValue y vs := by
  have e : (vs.filter fun p => !(p.name == x)).find? (fun p => p.name == y) = vs.find? (fun p => p.name == y) := by
    rw [List.find?_filter]
    congr 1
    funext p
    by_cases hp : p.name = y
    · simp [hp, h]
    · simp [hp]
  simp [varValue, assign, List.find?_append, e, Ne.symm h]

theorem access_of_wf {off width : Nat} (h : (aligned off width && inWindow off) = true)
    (act : Reg → Host.Outcome State Fault Refusal) : access off width act = act (regOf off) := by
  simp [Bool.and_eq_true] at h
  simp [access, h.1, h.2]

/-- What a write of a register can do (R55). -/
theorem writeReg_cases (r : Reg) (v : Word) (s : State) :
    (r = .cmd ∧ writeReg r v s = submit v s) ∨
    (r = .errinfo ∧ writeReg r v s = .next { s with eng := s.eng.writeErrinfo v }) ∨
    (r ≠ .cmd ∧ r ≠ .errinfo ∧ writeReg r v s = .next s) := by
  cases r <;> simp [writeReg]

/-- What a submitted word does, by what it decodes to: always a next state in which only the engine differs. -/
theorem submit_eq (w : Word) (s : State) :
    submit w s = .next { s with eng := match decode w with
      | .command i => s.eng.issue i (Engine.execute i)
      | .reject c => s.eng.recordError (if s.eng.busy then .busy else c) w } := by
  unfold submit
  cases decode w with
  | command i => exact exec_eq i s
  | reject c => rfl

/-- A submitted word either records a rejection, or is a command that the check accepts and that acts. -/
theorem submit_cases {w : Word} {s t : State} (h : submit w s = .next t) :
    ∃ e', t = { s with eng := e' } ∧
      ((∃ c w', e' = s.eng.recordError c w') ∨
       (∃ i, decode w = .command i ∧ rejection i s.eng = none ∧ e' = s.eng.execute i)) := by
  rw [submit_eq] at h
  cases h
  refine ⟨_, rfl, ?_⟩
  cases hd : decode w with
  | reject c => exact .inl ⟨_, _, rfl⟩
  | command i =>
    obtain ⟨c, -, he⟩ | ⟨hn, he⟩ := Engine.issue_cases i (Engine.execute i) s.eng
    · exact .inl ⟨c, _, he⟩
    · exact .inr ⟨i, rfl, hn, he⟩

/-! ### The step of the machine (R12, R62) -/

/-- What the turn of the host can do: nothing; a read or a poll, which leave the engine as it is; or a write, which
submits a word, writes ERRINFO, or has no effect. -/
theorem hostTurn_cases {s t : State} (h : hostTurn s = .next t) :
    t = s ∨
    (∃ off width dst rest, s.pending = .read off width dst :: rest ∧
      t = readOp off dst (regOf off) { s with pending := rest }) ∨
    (∃ rest, s.pending = .wait :: rest ∧ t = pollOp rest s) ∨
    (∃ off v rest, s.pending = .write off 4 v :: rest ∧ off % 4 = 0 ∧ off < 64 ∧
      ((regOf off = .cmd ∧ submit v { s with pending := rest } = .next t) ∨
       (regOf off = .errinfo ∧ t = { s with pending := rest, eng := s.eng.writeErrinfo v }) ∨
       (regOf off ≠ .cmd ∧ regOf off ≠ .errinfo ∧ t = { s with pending := rest }))) := by
  unfold hostTurn at h
  split at h
  · cases h; exact .inl rfl
  · next off width dst rest hp =>
    unfold access at h
    split at h
    · split at h
      · cases h; exact .inr (.inl ⟨off, width, dst, rest, hp, rfl⟩)
      · cases h
    · cases h
  · next off width v rest hp =>
    unfold access at h
    split at h
    · next hwin =>
      split at h
      · next hal =>
        simp only [aligned, Bool.and_eq_true, beq_iff_eq] at hal
        obtain ⟨rfl, hoff⟩ := hal
        refine .inr (.inr (.inr ⟨off, v, rest, hp, hoff, by simpa [inWindow] using hwin, ?_⟩))
        obtain ⟨hr, hw⟩ | ⟨hr, hw⟩ | ⟨hc, he, hw⟩ := writeReg_cases (regOf off) v { s with pending := rest }
        · exact .inl ⟨hr, hw.symm.trans h⟩
        · cases hw.symm.trans h; exact .inr (.inl ⟨hr, rfl⟩)
        · cases hw.symm.trans h; exact .inr (.inr ⟨hc, he, rfl⟩)
      · cases h
    · cases h
  · next rest hp => cases h; exact .inr (.inr (.inl ⟨rest, hp, rfl⟩))

/-- What the turn of the engine can do. -/
theorem engineTurn_cases {s t : State} (h : engineTurn s = .next t) :
    (s.eng.step = none ∧ t = s) ∨ (∃ e', s.eng.step = some e' ∧ t = { s with eng := e' }) := by
  unfold engineTurn at h
  split at h
  · next e' hs => cases h; exact .inr ⟨e', hs, rfl⟩
  · next hs => cases h; exact .inl ⟨hs, rfl⟩

/-- Whose turn a step is: with `ts` the turns that are left, the host's, the engine's, or the reset input's. -/
theorem step_cases {s t : State} (h : step s = .next t) :
    ∃ ts, (s.hostMoves ts ∧ hostTurn { s with turns := ts } = .next t) ∨
      (engineTurn { s with turns := ts } = .next t) ∨
      (s.turns = .reset :: ts ∧ t = resetEvent { s with turns := ts }) := by
  unfold step at h
  split at h
  · next hts =>
    have hs : { s with turns := [] } = s := by rw [← hts]
    refine ⟨[], ?_⟩
    rw [hs]
    split at h
    · exact .inr (.inl h)
    · next hb => exact .inl ⟨.inr ⟨hts, rfl, by simpa using hb⟩, h⟩
  · next ts hts => exact ⟨ts, .inl ⟨.inl hts, h⟩⟩
  · next ts _ => exact ⟨ts, .inr (.inl h)⟩
  · next ts ht => cases h; exact ⟨ts, .inr (.inr ⟨ht, rfl⟩)⟩

/-- Every step keeps the canonical form of the host's variables. -/
theorem step_keeps_varsWf {s t : State} (h : step s = .next t) (hv : varsWf s.vars) : varsWf t.vars := by
  obtain ⟨ts, ⟨-, h⟩ | h | ⟨-, rfl⟩⟩ := step_cases h
  · obtain rfl | ⟨off, width, dst, rest, -, rfl⟩ | ⟨rest, -, rfl⟩ | ⟨off, v, rest, -, -, -, ⟨-, h⟩ | ⟨-, rfl⟩ | ⟨-, -, rfl⟩⟩ :=
      hostTurn_cases h
    · exact hv
    · rw [readOp_vars]; exact assign_wf hv _ _
    · rw [pollOp_vars]; exact assign_wf hv _ _
    · obtain ⟨e', rfl, -⟩ := submit_cases h; exact hv
    · exact hv
    · exact hv
  · obtain ⟨-, rfl⟩ | ⟨e', -, rfl⟩ := engineTurn_cases h <;> exact hv
  · exact hv

end Sys2Proof.Machine
end

