-- ==== Sys2Proof/Laws/Words.lean ====
section
/-! SUPPORT. What the word operations do, said once: the fields of a command word as numbers (R81), the bytes of X
(R138), the blocks of a message (R180), and the lengths of the queued byte sequences (R131, R153). -/

namespace Sys2Proof

/-! ### Fields of a command word (R81, R82) -/

theorem opField_toNat (w : Word) : (opField w).toNat = w.toNat % 256 := by simp [opField]

theorem rsvField_toNat (w : Word) : (rsvField w).toNat = w.toNat / 256 % 256 := by
  simp [rsvField, Nat.shiftRight_eq_div_pow]

theorem opndField_toNat (w : Word) : (opndField w).toNat = w.toNat / 65536 := by
  have := w.isLt
  simp [opndField, Nat.shiftRight_eq_div_pow]
  omega

theorem byteField_toNat (w : Word) : (byteField w).toNat = w.toNat / 65536 % 256 := by
  simp [byteField, Nat.shiftRight_eq_div_pow]

theorem topField_toNat (w : Word) : (topField w).toNat = w.toNat / 16777216 := by
  have := w.isLt
  simp [topField, Nat.shiftRight_eq_div_pow]
  omega

/-- A field above bit `k` and a number below it do not overlap. -/
theorem shiftLeft_or_eq_add (a n k : Nat) (h : n < 2 ^ k) : a <<< k ||| n = a * 2 ^ k + n := by
  rw [← Nat.shiftLeft_add_eq_or_of_lt h, Nat.shiftLeft_eq]

theorem encode_feedcu_toNat (u : CodeUnit) : (encode (.feedcu u)).toNat = u.toNat * 65536 + 2 := by
  have := u.isLt
  simp only [encode, BitVec.toNat_or, BitVec.toNat_shiftLeft, BitVec.toNat_setWidth, BitVec.toNat_ofNat]
  rw [Nat.mod_eq_of_lt (a := u.toNat) (by omega), Nat.mod_eq_of_lt (by rw [Nat.shiftLeft_eq]; omega)]
  exact shiftLeft_or_eq_add _ 2 16 (by decide)

theorem encode_feedb_toNat (b : Byte) : (encode (.feedb b)).toNat = b.toNat * 65536 + 3 := by
  have := b.isLt
  simp only [encode, BitVec.toNat_or, BitVec.toNat_shiftLeft, BitVec.toNat_setWidth, BitVec.toNat_ofNat]
  rw [Nat.mod_eq_of_lt (a := b.toNat) (by omega), Nat.mod_eq_of_lt (by rw [Nat.shiftLeft_eq]; omega)]
  exact shiftLeft_or_eq_add _ 3 16 (by decide)

/-- `decode` by the number of the word, for linear arithmetic. -/
theorem decode_eq_toNat (w : Word) : decode w =
    if 4 < w.toNat % 256 then .reject .illegalOpcode
    else if w.toNat / 256 % 256 ≠ 0 then .reject .reservedBits
    else if w.toNat % 256 = 2 then .command (.feedcu (opndField w))
    else if w.toNat % 256 = 3 then
      if w.toNat / 16777216 ≠ 0 then .reject .reservedBits else .command (.feedb (byteField w))
    else if w.toNat / 65536 ≠ 0 then .reject .reservedBits
    else if w.toNat % 256 = 0 then .command .nop
    else if w.toNat % 256 = 1 then .command .init
    else .command .final := by
  simp only [decode, BitVec.lt_def, ne_eq, BitVec.toNat_eq, opField_toNat, rsvField_toNat, opndField_toNat,
    topField_toNat, BitVec.toNat_ofNat]

theorem regOf_offset (r : Reg) : regOf r.offset = r := by cases r <;> rfl

end Sys2Proof

namespace Sys2Proof.Machine

/-! ### Bytes of words and of X (R138) -/

theorem byteOf_setByteOf (w : Word) (j : Nat) (b : Byte) (k : Nat) (hj : j < 4) (hk : k < 4) :
    byteOf (setByteOf w j b) k = if k = j then b else byteOf w k := by
  have hm : ∀ j < 4, ∀ k < 4, ∀ i < 8, (0xFF#32 <<< (8 * j)).getLsbD (8 * k + i) = decide (k = j) := by decide
  unfold byteOf setByteOf
  ext i hi
  simp only [BitVec.getElem_extractLsb', BitVec.getLsbD_or, BitVec.getLsbD_and, BitVec.getLsbD_not, hm j hj k hk i hi]
  simp only [BitVec.getLsbD_shiftLeft, BitVec.getLsbD_setWidth]
  split
  · next h => subst h; simp [show 8 * k + i < 32 by omega, hi]; omega
  · next h =>
    rw [BitVec.getElem_extractLsb']
    simp [h, show 8 * k + i < 32 by omega]
    intro h1 h2 h3
    rw [BitVec.getLsbD_of_ge b _ (by omega)] at h3
    cases h3

theorem putByte_get (x : Vector Word 16) (p : Nat) (hp : p < 64) (b : Byte) (k : Fin 16) :
    (putByte x p b).get k = if k.val = p / 4 then setByteOf (x.get k) (p % 4) b else x.get k := by
  unfold putByte
  rw [dif_pos (by omega)]
  simp only [Vector.get_eq_getElem]
  rw [Vector.getElem_set]
  split
  · next h => simp [← h]
  · next h => rw [if_neg (fun h' => h h'.symm)]

/-- Two words with the same four bytes are equal. -/
theorem word_ext {a b : Word} (h : ∀ k < 4, byteOf a k = byteOf b k) : a = b := by
  ext i hi
  have := congrArg (fun v => v.getLsbD (i % 8)) (h (i / 8) (by omega))
  simp [byteOf, show 8 * (i / 8) + i % 8 = i by omega, hi] at this
  have h8 : i % 8 < 8 := by omega
  simpa [h8] using this

theorem byteOf_wordOfBytes (b0 b1 b2 b3 : Byte) (k : Nat) (hk : k < 4) :
    byteOf (wordOfBytes b0 b1 b2 b3) k = [b0, b1, b2, b3].getD k 0 := by
  obtain rfl | rfl | rfl | rfl : k = 0 ∨ k = 1 ∨ k = 2 ∨ k = 3 := by omega
  all_goals (unfold byteOf wordOfBytes place; ext j hj; simp)
  all_goals (have h8 : ∀ n, 8 ≤ n → ∀ b : Byte, b.getLsbD n = false := fun n h b => BitVec.getLsbD_of_ge b n h)
  all_goals (interval_cases j <;> simp)

/-! ### Blocks of a message (R180) -/

theorem chain_succ (n : Nat) (bs : List Byte) (cv : Quad) :
    chain (n + 1) bs cv = compress (chain n bs cv) (blockAt bs n) := by
  simp [chain, List.range_succ]

/-- The first `n` blocks do not depend on what follows them. -/
theorem chain_append (n : Nat) (a b : List Byte) (cv : Quad) (h : 64 * n ≤ a.length) :
    chain n (a ++ b) cv = chain n a cv := by
  induction n with
  | zero => simp [chain]
  | succ n ih =>
    rw [chain_succ, chain_succ, ih (by omega)]
    unfold blockAt
    rw [List.drop_append_of_le_length (by omega), List.take_append_of_le_length (by simp; omega)]

/-! ### Queued byte sequences (R131, R153) -/

theorem utf8Bytes_length (u : CodeUnit) : 1 ≤ (utf8Bytes u).length ∧ (utf8Bytes u).length ≤ 3 := by
  unfold utf8Bytes
  split
  · simp
  · split <;> simp

theorem padBytes_length (z : Nat) (l : Long) : (padBytes z l).length = 9 + z := by
  simp [padBytes, le64, le32]
  omega

theorem countedEntries_byte (bs : List Byte) : (countedEntries bs).map QEntry.byte = bs := by
  simp [countedEntries, Function.comp_def]

theorem paddingEntries_byte (bs : List Byte) : (paddingEntries bs).map QEntry.byte = bs := by
  simp [paddingEntries, Function.comp_def]

end Sys2Proof.Machine
end

