-- ==== Sys2Proof/Laws/PerInstr.lean ====
section
/-! SUPPORT. What is said of every command as syntax, one lemma per constructor: its encoded word lies in its own row
of the table (spec/30_encoding.md R82, R83), and it is well formed. -/

namespace Sys2Proof.Laws.EncodedInItsRow

/-- The command is well formed, and its word is one of the words of its row: `(w & mask) = match` (R83). -/
def Statement (i : Instr) : Prop := i.wf = true ∧ inRow i (encode i) = true

theorem nop : Statement .nop := by
  unfold Statement
  decide

theorem init : Statement .init := by
  unfold Statement
  decide

theorem feedcu (u : CodeUnit) : Statement (.feedcu u) := by
  refine ⟨rfl, ?_⟩
  have hu := u.isLt
  rw [inRow, beq_iff_eq]
  apply BitVec.eq_of_toNat_eq
  rw [BitVec.toNat_and, encode_feedcu_toNat]
  exact (Nat.and_two_pow_sub_one_eq_mod _ 16).trans (by show _ = 2; omega)

theorem feedb (b : Byte) : Statement (.feedb b) := by
  refine ⟨rfl, ?_⟩
  revert b
  decide +kernel

theorem final : Statement .final := by
  unfold Statement
  decide

end Sys2Proof.Laws.EncodedInItsRow
end

