-- ==== Sys2Proof/Tests/Slice0.lean ====
section
/-! SUPPORT. The model's own tests: WellFormed on ill-formed terms, decoding of words written out from
spec/30_encoding.md, single steps against the vectors of spec/95_test_vectors.md, and for each statement with
hypotheses a witness that meets them. Expected values come from the spec, by the row a comment names. -/

namespace Sys2Proof.Tests

open Sys2Proof Sys2Proof.Machine

/-! ### Helpers -/

/-- The engine right after an INIT (R102). -/
def active : Engine := Engine.reset.startContext

/-- An active engine with one message byte queued: BUSY = 1. -/
def feeding : Engine := { active with queue := [⟨0x61#8, true⟩] }

/-- An active engine whose FINAL has been absorbed and compressed: the latch is due. -/
def latching : Engine := { active with fin := true }

/-- A full block at operation `i`. -/
def compressing (i : Fin 64) : Engine :=
  { active with seq := .round i, save := iv, bcnt := 64, queue := [⟨0xAD#8, true⟩] }

/-- An engine in phase DONE. -/
def finished : Engine := { Engine.reset with phase := .done }

/-- An engine with a recorded rejection. -/
def failed : Engine := Engine.reset.recordError .phase 0x00000004#32

/-- A machine with this engine, these host operations and these turns. -/
def machine (e : Engine) (ops : List HostOp) (ts : List Turn) : State :=
  { State.reset with eng := e, pending := ops, turns := ts }

/-- The outcome is a next state in which `p` holds. -/
def nextWith (o : Host.Outcome State Fault Refusal) (p : State → Bool) : Bool :=
  match o with
  | .next t => p t
  | .fault _ => false
  | .refused _ => false

/-- The outcome is the refusal `r`. -/
def refusedWith (o : Host.Outcome State Fault Refusal) (r : Refusal) : Bool :=
  match o with
  | .next _ => false
  | .fault _ => false
  | .refused r' => decide (r' = r)

/-! ### WellFormed: one ill-formed term for each check -/

theorem test_wf_instr : Instr.wf (.feedcu 0xFFFF#16) = true ∧ Instr.wf (.feedb 0xFF#8) = true := by decide
theorem test_wf_feedcu_too_wide : Asm.wf (.feedcu 0x10000) = false ∧ Asm.wf (.feedcu 0xFFFF) = true := by decide
theorem test_wf_feedb_too_wide : Asm.wf (.feedb 0x100) = false ∧ Asm.wf (.feedb 0xFF) = true := by decide
theorem test_wf_feedbytes_too_wide : Asm.wf (.feedbytes [1, 0x100]) = false := by decide
theorem test_wf_cmd_too_wide : Asm.wf (.cmd 0x100000000) = false ∧ Asm.wf (.cmd 0xFFFFFFFF) = true := by decide
theorem test_wf_wr : Asm.wf (.wr 0x02 0) = false ∧ Asm.wf (.wr 0x40 0) = false ∧ Asm.wf (.wr 0x08 0x100000000) = false ∧
    Asm.wf (.wr 0x3C 0xFFFFFFFF) = true := by decide
theorem test_wf_rd : Asm.wf (.rd 0x21 ['x']) = false ∧ Asm.wf (.rd 0x40 ['x']) = false ∧ Asm.wf (.rd 0x20 ['x']) = true := by decide
theorem test_wf_inside : Asm.wf (.seq .init (.feedb 0x100)) = false ∧ Asm.wf (.seq (.feedcu 0x10000) .final) = false ∧
    Asm.wf (.rep 2 (.feedb 0x100)) = false := by decide
theorem test_wf_host_op : HostOp.wf (.read 0x04 1 none) = false ∧ HostOp.wf (.read 0x05 4 none) = false ∧
    HostOp.wf (.read 0x40 4 none) = false ∧ HostOp.wf (.write 0x00 2 0) = false ∧ HostOp.wf (.write 0x01 4 0) = false ∧
    HostOp.wf (.write 0x40 4 0) = false ∧ HostOp.wf (.read 0x3C 4 none) = true := by decide
theorem test_assemble_refuses : assemble (.feedcu 0x10000) = none := by decide

/-! ### Decoding: words written out from the fields of R81, most significant bit first -/

theorem test_decode_nop : decode 0b00000000000000000000000000000000#32 = .command .nop := by decide
theorem test_decode_init : decode 0b00000000000000000000000000000001#32 = .command .init := by decide
/-- OPND = 0x4E2D, RSV = 0, OP = 2. -/
theorem test_decode_feedcu : decode 0b01001110001011010000000000000010#32 = .command (.feedcu 0x4E2D#16) := by decide
/-- The byte at bits 23..16, OP = 3. -/
theorem test_decode_feedb : decode 0b00000000011000010000000000000011#32 = .command (.feedb 0x61#8) := by decide
theorem test_decode_final : decode 0b00000000000000000000000000000100#32 = .command .final := by decide
/-- V-ERR-4, V-ERR-5, V-ERR-10. -/
theorem test_decode_illegal : decode 0x00000005#32 = .reject .illegalOpcode ∧ decode 0x000000FF#32 = .reject .illegalOpcode ∧
    decode 0x00000105#32 = .reject .illegalOpcode := by decide
/-- V-ERR-6 to V-ERR-9, V-ERR-16, V-ERR-17. -/
theorem test_decode_reserved : decode 0x00000101#32 = .reject .reservedBits ∧ decode 0x00010001#32 = .reject .reservedBits ∧
    decode 0x01000003#32 = .reject .reservedBits ∧ decode 0x00010004#32 = .reject .reservedBits ∧
    decode 0x0000FF02#32 = .reject .reservedBits ∧ decode 0x00000300#32 = .reject .reservedBits := by decide
theorem test_decode_table_word : decodeTableWord 32 0xFFFF0002 = some (.feedcu 0xFFFF#16) ∧
    decodeTableWord 32 0x00000005 = none ∧ decodeTableWord 40 0 = none := by decide

/-! ### Single steps -/

/-- V-ERR-3. -/
theorem test_step_nop : nextWith (step (State.reset.withFetchWord 32 0x00000000)) (fun t =>
    decide (t.observation = List.replicate 16 0#32)) = true := by decide
/-- R102's example: CV_A..CV_D and STATUS. -/
theorem test_step_init : nextWith (step (State.reset.withFetchWord 32 0x00000001)) (fun t =>
    decide (t.eng.cv = ⟨0x67452301#32, 0xEFCDAB89#32, 0x98BADCFE#32, 0x10325476#32⟩ ∧
      t.eng.regValue .status = 0x00000002#32)) = true := by decide
/-- V-ERR-11: FEEDCU in IDLE. -/
theorem test_step_feedcu_idle : nextWith (step (State.reset.withFetchWord 32 0x00010002)) (fun t =>
    decide (t.eng.regValue .status = 0x00000008#32 ∧ t.eng.regValue .errinfo = 0x00000041#32 ∧
      t.eng.regValue .errcmd = 0x00010002#32)) = true := by decide
/-- R131's example for U+4E2D, and BUSY. -/
theorem test_exec_feedcu : nextWith (exec (.feedcu 0x4E2D#16) (machine active [] [])) (fun t =>
    decide (t.eng.queue = [⟨0xE4#8, true⟩, ⟨0xB8#8, true⟩, ⟨0xAD#8, true⟩] ∧ t.eng.busy = true)) = true := by decide
/-- V-ERR-1: FEEDB in IDLE. -/
theorem test_step_feedb_idle : nextWith (step (State.reset.withFetchWord 32 0x00610003)) (fun t =>
    decide (t.eng.regValue .status = 0x00000008#32 ∧ t.eng.regValue .errinfo = 0x00000041#32 ∧
      t.eng.regValue .errcmd = 0x00610003#32)) = true := by decide
/-- V-ERR-12: FEEDB while busy. -/
theorem test_exec_feedb_busy : nextWith (exec (.feedb 0x62#8) (machine feeding [] [])) (fun t =>
    decide (t.eng.regValue .errinfo = 0x00000011#32 ∧ t.eng.errCmd = 0x00620003#32 ∧
      t.eng.queue = feeding.queue)) = true := by decide
/-- V-ERR-2: FINAL in IDLE. -/
theorem test_step_final_idle : nextWith (step (State.reset.withFetchWord 32 0x00000004)) (fun t =>
    decide (t.eng.regValue .status = 0x00000008#32 ∧ t.eng.regValue .errcmd = 0x00000004#32)) = true := by decide
/-- R160, n = 1: z = 54, 63 bytes of padding, the length 8 in the first of the last eight. -/
theorem test_exec_final : nextWith (exec .final (machine { active with bcnt := 1, len := 8#64 } [] [])) (fun t =>
    decide (t.eng.queue.length = 63 ∧ t.eng.queue.head? = some ⟨0x80#8, false⟩ ∧
      t.eng.queue[55]? = some ⟨0x08#8, false⟩ ∧ t.eng.fin = true)) = true := by decide
/-- V-ERR-13: the first record is kept, OVF is set. -/
theorem test_overflow : nextWith (submit 0x00000105#32 (machine failed [] [])) (fun t =>
    decide (t.eng.regValue .errinfo = 0x00000043#32 ∧ t.eng.errCmd = 0x00000004#32)) = true := by decide
/-- V-ERR-19 and V-ERR-20: ERRINFO written with bit 0 set, and with bit 0 clear. -/
theorem test_clear : nextWith (step (machine failed [.write 0x08 4 0x00000001#32] [.host])) (fun t =>
      decide (t.eng.regValue .errinfo = 0#32 ∧ t.eng.errCmd = 0#32)) = true ∧
    nextWith (step (machine failed [.write 0x08 4 0xFFFFFFFE#32] [.host])) (fun t =>
      decide (t.eng = failed)) = true := by decide
/-- R52, R60. -/
theorem test_refusals : refusedWith (step (machine active [.read 0x04 1 none] [])) .undefinedAccess = true ∧
    refusedWith (step (machine active [.write 0x40 4 0#32] [])) .outsideWindow = true := by decide
/-- R89's `RD off -> name`: the variable has the value read (V-ERR-2's ERRINFO), and is assigned once. -/
theorem test_read_into_variable :
    nextWith (step { machine failed [.read 0x08 4 (some ['e'])] [] with vars := [⟨['e'], 7#32⟩, ⟨['x'], 5#32⟩] }) (fun t =>
      decide (varValue ['e'] t.vars = some 0x00000041#32 ∧ varValue ['x'] t.vars = some 5#32 ∧ t.vars.length = 2)) = true := by
  decide
/-- R90's WAIT reads STATUS into `s`: after an INIT it reads 00000002 (R102). -/
theorem test_wait_into_s : nextWith (step (machine active [.wait] [])) (fun t =>
    decide (varValue ['s'] t.vars = some 0x00000002#32 ∧ t.pending = [])) = true := by decide
/-- V-ADD, V-PAD-5: LEN wraps when one more counted byte is absorbed. -/
theorem test_length_wraps :
    (Engine.absorb { feeding with len := 0xFFFFFFFFFFFFFFF8#64 }).len = 0#64 := by decide
/-- R138's example: the bytes 61 62 63 80. -/
theorem test_packing : wordOfBytes 0x61#8 0x62#8 0x63#8 0x80#8 = 0x80636261#32 ∧
    (putByte (Vector.replicate 16 0x00636261#32) 3 0x80#8).get 0 = 0x80636261#32 := by decide

/-! ### Word operations -/

/-- V-FN, row 6 and row 8. -/
theorem test_round_functions :
    fnF 0x67452301#32 0xEFCDAB89#32 0x98BADCFE#32 = 0xFFFFFFFF#32 ∧ fnG 0x67452301#32 0xEFCDAB89#32 0x98BADCFE#32 = 0x67452301#32 ∧
    fnH 0x12345678#32 0x9ABCDEF0#32 0x0F0F0F0F#32 = 0x87878787#32 ∧ fnI 0x12345678#32 0x9ABCDEF0#32 0x0F0F0F0F#32 = 0x68482808#32 := by
  decide
/-- V-ROTL. -/
theorem test_rotl : rotl 0x80000000#32 1 = 0x00000001#32 ∧ rotl 0x00000001#32 31 = 0x80000000#32 ∧
    rotl 0x87654321#32 23 = 0x90C3B2A1#32 := by decide
/-- V-ROM. -/
theorem test_rom : romT 47 = 0xC4AC5665#32 ∧ romT 63 = 0xEB86D391#32 ∧ romK 17 = 6 ∧ romK 34 = 11 ∧ romK 63 = 9 ∧
    romS 19 = 20 ∧ romS 33 = 11 ∧ romS 63 = 21 := by decide
/-- V-TRACE-1: operation 0 of the empty message. -/
theorem test_first_operation :
    roundOp 0 ((Vector.replicate 16 0#32).set 0 0x00000080#32) iv =
      ⟨0x10325476#32, 0xA5202774#32, 0xEFCDAB89#32, 0x98BADCFE#32⟩ := by decide
/-- V-TRACE-2, rows 62 and 63. -/
theorem test_last_operation :
    roundOp 63 ((Vector.replicate 16 0#32).set 0 0x00000080#32)
        ⟨0x30130182#32, 0xFF4EA3EB#32, 0x6E10A476#32, 0x7246FAD3#32⟩ =
      ⟨0x7246FAD3#32, 0x14E45506#32, 0xFF4EA3EB#32, 0x6E10A476#32⟩ := by decide
/-- V-DIG-A, n = 0. -/
theorem test_md5_empty : md5 [] = ⟨0xD98C1DD4#32, 0x04B2008F#32, 0x980980E9#32, 0x7E42F8EC#32⟩ := by decide +kernel
/-- V-DIG-S2, "abc". -/
theorem test_md5_abc : md5 [0x61#8, 0x62#8, 0x63#8] = ⟨0x98500190#32, 0xB04FD23C#32, 0x7D3F96D6#32, 0x727FE128#32⟩ := by
  decide +kernel
/-- V-OUT-1, V-OUT-2. -/
theorem test_hex : String.ofList (hexRender ⟨0xD98C1DD4#32, 0x04B2008F#32, 0x980980E9#32, 0x7E42F8EC#32⟩) =
    "d41d8cd98f00b204e9800998ecf8427e" := by decide +kernel
/-- V-UTF-1, 3, 4, 6, 7, 17. -/
theorem test_utf8 : utf8Bytes 0x0000#16 = [0x00#8] ∧ utf8Bytes 0x007F#16 = [0x7F#8] ∧ utf8Bytes 0x0080#16 = [0xC2#8, 0x80#8] ∧
    utf8Bytes 0x07FF#16 = [0xDF#8, 0xBF#8] ∧ utf8Bytes 0x0800#16 = [0xE0#8, 0xA0#8, 0x80#8] ∧
    utf8Bytes 0xFFFF#16 = [0xEF#8, 0xBF#8, 0xBF#8] := by decide
/-- V-UTF-9: U+1F600 is presented as D83D DE00. -/
theorem test_utf16 : utf16Units (Char.ofNat 0x1F600) = [0xD83D#16, 0xDE00#16] := by decide

/-! ### The assembler's text -/

/-- Lines of P3 of spec/95_test_vectors.md. -/
theorem test_parse_lines :
    assembleText "  FEEDB 0x61 ; 00610003\n CMD 0x00000105\n RD ERRINFO -> e\n CLRERR\n FEEDCU 0x4E2D ; 4E2D0002\n WAIT\n".toList =
      some [.write 0x00 4 0x00610003#32, .write 0x00 4 0x00000105#32, .read 0x08 4 (some ['e']), .write 0x08 4 0x00000001#32,
        .write 0x00 4 0x4E2D0002#32, .wait] := by decide +kernel
/-- REPEAT and FEEDBYTES of R90, in the form of P5. -/
theorem test_parse_repeat :
    assembleText ("REPEAT 2 ".toList ++ [Char.ofNat 123] ++ " FEEDB 0x61 ; 00610003\n WAIT ".toList ++ [Char.ofNat 125] ++
        "\nFEEDBYTES 1, 255".toList) =
      some [.write 0x00 4 0x00610003#32, .wait, .write 0x00 4 0x00610003#32, .wait,
        .write 0x00 4 0x00010003#32, .wait, .write 0x00 4 0x00FF0003#32, .wait] := by decide +kernel
/-- The targets of R90: four names, and the range. -/
theorem test_parse_targets :
    parse "READDIGEST -> d0,d1,d2,d3".toList = parse "READDIGEST -> d0..d3".toList ∧
    parse "DIGEST \"a\" -> d0..d3".toList = some (.seq .skip (.digest ['a'] ⟨['d', '0'], ['d', '1'], ['d', '2'], ['d', '3']⟩)) ∧
    parse "READDIGEST -> d0".toList = none := by decide +kernel
/-- Texts that are no program, or whose operands do not fit. -/
theorem test_parse_refuses : parse "FEEDB".toList = none ∧ parse "FOO 1".toList = none ∧ parse "FEEDB 0xG".toList = none ∧
    parse ("REPEAT 2 ".toList ++ [Char.ofNat 123] ++ " WAIT".toList) = none ∧
    assembleText "FEEDCU 0x10000".toList = none := by decide +kernel

/-! ### Witnesses: states and operands that meet the hypotheses of the statements, clause by clause -/

theorem witness_EncodeOfDecode : decode 0x00FF0003#32 = .command (.feedb 0xFF#8) := by decide

theorem witness_WordsOfEachCommand : inRow (.feedcu 0#16) 0x4E2D0002#32 = true ∧ inRow (.feedcu 7#16) 0x4E2D0002#32 = true := by
  decide

/-- The least and the greatest illegal opcode, and a reserved bit of each other field. -/
theorem witness_IllegalAndReservedWordsRejected :
    ((0x00000005#32).extractLsb' 0 8).toNat ≥ 0x05 ∧ ((0xFFFFFFFF#32).extractLsb' 0 8).toNat ≥ 0x05 ∧
    ((0x00000100#32).extractLsb' 0 8 = 0x00#8 ∧ (0x00000100#32).extractLsb' 8 24 ≠ 0#24) ∧
    ((0x80000001#32).extractLsb' 0 8 = 0x01#8 ∧ (0x80000001#32).extractLsb' 8 24 ≠ 0#24) ∧
    ((0x00010004#32).extractLsb' 0 8 = 0x04#8 ∧ (0x00010004#32).extractLsb' 8 24 ≠ 0#24) ∧
    ((0x00008002#32).extractLsb' 0 8 = 0x02#8 ∧ (0x00008002#32).extractLsb' 8 8 ≠ 0#8) ∧
    ((0x00000103#32).extractLsb' 0 8 = 0x03#8 ∧ (0x00000103#32).extractLsb' 8 8 ≠ 0#8) ∧
    ((0x80000003#32).extractLsb' 0 8 = 0x03#8 ∧ (0x80000003#32).extractLsb' 24 8 ≠ 0#8) := by decide

/-- Both ways in which the host moves, with a word that decodes and one that does not. -/
theorem witness_StepRunsTheDecodedCommand :
    (machine active [.write 0x00 4 0x00610003#32] [.host]).hostMoves [] ∧
    (machine feeding [.write 0x00 4 0x00000005#32] [.host, .engine]).hostMoves [.engine] ∧
    (machine active [.write 0x00 4 0x00000105#32] []).hostMoves [] ∧
    decode 0x00610003#32 = .command (.feedb 0x61#8) ∧ decode 0x00000105#32 = .reject .illegalOpcode :=
  ⟨.inl rfl, .inl rfl, .inr ⟨rfl, rfl, by decide⟩, by decide, by decide⟩

theorem witness_RejectionsArePrecise :
    check feeding 0x00000000#32 = .reject .busy ∧ feeding.errValid = false ∧
    check failed 0x00000004#32 = .reject .phase ∧ failed.errValid = true := by decide

theorem witness_RejectionPriority :
    feeding.busy = true ∧ active.busy = false ∧ active.phase = .active ∧ decode 0x00000105#32 = .reject .illegalOpcode ∧
    decode 0x00010004#32 = .reject .reservedBits ∧ Engine.reset.busy = false ∧ Engine.reset.phase ≠ .active ∧
    finished.busy = false ∧ finished.phase ≠ .active ∧ decode 0xFFFF0002#32 = .command (.feedcu 0xFFFF#16) ∧
    decode 0x00FF0003#32 = .command (.feedb 0xFF#8) ∧ decode 0x00000004#32 = .command .final ∧
    decode 0x00000000#32 = .command .nop ∧ decode 0x00000001#32 = .command .init := by decide

theorem witness_ErrinfoWriteClears :
    (machine feeding [.write 0x08 4 0x00000001#32] [.host]).hostMoves [] ∧ (0x00000001#32).getLsbD 0 = true ∧
    (machine failed [.write 0x08 4 0xFFFFFFFE#32] []).hostMoves [] ∧ (0xFFFFFFFE#32).getLsbD 0 = false :=
  ⟨.inl rfl, by decide, .inr ⟨rfl, rfl, by decide⟩, by decide⟩

/-- A step that keeps the record, one that clears it by a write, one by reset. -/
theorem witness_OnlyErrinfoWriteAndResetClear : failed.errValid = true ∧
    nextWith (step (machine failed [.write 0x00 4 0x00000001#32] [])) (fun t => t.eng.errValid) = true ∧
    nextWith (step (machine failed [.write 0x08 4 0x00000001#32] [])) (fun t => !t.eng.errValid) = true ∧
    nextWith (step (machine failed [] [.reset])) (fun t => !t.eng.errValid) = true := by decide

/-- For the five command statements: accepted; rejected with BUSY; rejected with PHASE; RESERVED_BITS. -/
theorem witness_commands :
    (active.busy = false ∧ active.phase = .active) ∧ (finished.busy = false ∧ finished.phase ≠ .active) ∧ feeding.busy = true ∧
    ((0x00000300#32).extractLsb' 0 8 = 0x00#8 ∧ (0x00000300#32).extractLsb' 8 24 ≠ 0#24) ∧
    ((0x00010001#32).extractLsb' 0 8 = 0x01#8 ∧ (0x00010001#32).extractLsb' 8 24 ≠ 0#24) ∧
    ((0x0000FF02#32).extractLsb' 0 8 = 0x02#8 ∧ (0x0000FF02#32).extractLsb' 8 8 ≠ 0#8) ∧
    ((0x01000003#32).extractLsb' 0 8 = 0x03#8 ∧ (0x01000003#32).extractLsb' 24 8 ≠ 0#8) ∧
    ((0x00010004#32).extractLsb' 0 8 = 0x04#8 ∧ (0x00010004#32).extractLsb' 8 24 ≠ 0#24) := by decide

/-- The edges of the three ranges, and of the surrogates (V-UTF-3, 4, 6, 7, 11 to 15, 17). -/
theorem witness_Utf8Layout :
    utf8Bytes 0x007F#16 = [0x7F#8] ∧ utf8Bytes 0x0080#16 = [0xC2#8, 0x80#8] ∧ utf8Bytes 0x07FF#16 = [0xDF#8, 0xBF#8] ∧
    utf8Bytes 0x0800#16 = [0xE0#8, 0xA0#8, 0x80#8] ∧ utf8Bytes 0xD7FF#16 = [0xED#8, 0x9F#8, 0xBF#8] ∧
    utf8Bytes 0xD83D#16 = [0xED#8, 0xA0#8, 0xBD#8] ∧ utf8Bytes 0xDFFF#16 = [0xED#8, 0xBF#8, 0xBF#8] ∧
    utf8Bytes 0xE000#16 = [0xEE#8, 0x80#8, 0x80#8] ∧ utf8Bytes 0xFFFF#16 = [0xEF#8, 0xBF#8, 0xBF#8] := by decide

theorem witness_Utf8AgreesUpToFFFF : (Char.ofNat 0xFFFF).toNat < 0x10000 ∧ 0x10000 ≤ (Char.ofNat 0x10000).toNat ∧
    0x10000 ≤ (Char.ofNat 0x10FFFF).toNat := by decide

theorem witness_PaddingSequence : (0 ≤ 63 ∧ padZeros 0 = 55) ∧ padZeros 63 = 56 ∧ (63 + 1 + 120) % 64 = 56 := by decide

theorem witness_LengthGoesToTheLastTwoWords : ∃ e : Engine,
    e.seq = .sidle ∧ e.bcnt = 56 ∧ e.queue = (le64 24#64).map (fun b => ⟨b, false⟩) :=
  ⟨{ active with bcnt := 56, fin := true, queue := paddingEntries (le64 24#64) }, rfl, rfl, rfl⟩

theorem witness_BlockCount : active.busy = false ∧
    (Engine.finish { active with bcnt := 55 }).blocksLeft = 1 ∧ (Engine.finish { active with bcnt := 56 }).blocksLeft = 2 ∧
    (Engine.finish { active with bcnt := 63 }).blocksLeft = 2 := by decide

theorem witness_EngineStepPriority : (compressing 0).seq = .round 0 ∧ ({ compressing 0 with seq := .ff } : Engine).seq = .ff ∧
    (feeding.seq = .sidle ∧ feeding.queue ≠ []) ∧ (latching.seq = .sidle ∧ latching.queue = [] ∧ latching.fin = true) ∧
    (active.seq = .sidle ∧ active.queue = [] ∧ active.fin = false) ∧ active.busy = false ∧
    nextWith (step (machine active [.write 0x00 4 0x00000004#32] [])) (fun t => t.eng.busy) = true := by decide

/-- bcnt 0, and 63, where the byte fills the block. -/
theorem witness_AbsorbMovesOneByte : feeding.seq = .sidle ∧ feeding.queue = [⟨0x61#8, true⟩] ∧ feeding.bcnt = 0 ∧
    ({ feeding with bcnt := 63 } : Engine).bcnt ≤ 63 ∧ (Engine.absorb { feeding with bcnt := 63 }).seq = .round 0 := by decide

theorem witness_NoAbsorbDuringABlock : (compressing 5).seq ≠ .sidle ∧ (compressing 5).step.isSome = true ∧
    ({ compressing 5 with seq := .ff } : Engine).seq ≠ .sidle := by decide

theorem witness_RoundOperation : (compressing 0).seq = .round 0 ∧ (compressing 63).seq = .round 63 ∧
    ((compressing 0).round 0).seq = .round 1 ∧ ((compressing 63).round 63).seq = .ff := by decide

theorem witness_RoundFunctions : (0 : Nat) / 16 = 0 ∧ (31 < 32 ∧ 16 ≤ 31) ∧ (32 ≤ 32 ∧ 47 < 48) ∧ 48 ≤ 63 := by decide

theorem witness_RotationWraps : (1 ≤ 1 ∧ 1 ≤ 31) ∧ (rotl 0x80000000#32 1).getLsbD 0 = true ∧
    (rotl 0x00000001#32 31).getLsbD 31 = true := by decide

theorem witness_BlockIsCompressed : (compressing 0).seq = .round 0 ∧ (compressing 0).save = (compressing 0).cv := by decide

theorem witness_FeedForwardAndLatch : ({ compressing 0 with seq := .ff } : Engine).seq = .ff ∧
    latching.seq = .sidle ∧ latching.queue = [] ∧ latching.fin = true := by decide

theorem witness_EngineComesToRest : feeding.Inv ∧ feeding.remaining = 1 ∧ (compressing 0).remaining = 66 := by decide

/-- bcnt 0, 55, 56 and 63, with the LEN that goes with each; the step counts of V-STEP for 0, 55 and 56. -/
theorem witness_StepCounts :
    (active.Inv ∧ active.busy = false ∧ active.phase = .active ∧ (active.execute .final).remaining = 130) ∧
    (({ active with bcnt := 55, len := 440#64 } : Engine).Inv ∧
      (Engine.execute .final { active with bcnt := 55, len := 440#64 }).remaining = 75) ∧
    (({ active with bcnt := 56, len := 448#64 } : Engine).Inv ∧
      (Engine.execute .final { active with bcnt := 56, len := 448#64 }).remaining = 203) ∧
    ({ active with bcnt := 63, len := 504#64 } : Engine).Inv :=
  ⟨⟨by decide, by decide, by decide, by decide⟩, ⟨by decide, by decide⟩, ⟨by decide, by decide⟩, by decide⟩

theorem witness_FinalLatency : active.Inv ∧ active.busy = false ∧ active.phase = .active ∧ active.bcnt = 0 ∧
    Config.Timing.wf ⟨1, 1, 1, 1⟩ := ⟨by decide, by decide, by decide, by decide, by decide⟩

theorem witness_StatusAndErrinfoFields : (machine feeding [.read 0x04 4 none] [.host]).hostMoves [] ∧
    (machine failed [.read 0x08 4 none] []).hostMoves [] ∧ (machine active [.read 0x04 4 none] []).eng.busy = false :=
  ⟨.inl rfl, .inr ⟨rfl, rfl, by decide⟩, by decide⟩

/-- The first and the last register, while busy and while not. -/
theorem witness_ReadsReturnTheState : (machine feeding [.read Reg.cvD.offset 4 none] [.host]).hostMoves [] ∧
    (machine finished [.read Reg.cmd.offset 4 none] []).hostMoves [] ∧ finished.busy = false :=
  ⟨.inl rfl, .inr ⟨rfl, rfl, by decide⟩, by decide⟩

theorem witness_OtherWritesHaveNoEffect : (machine feeding [.write 0x04 4 1#32, .write 0x3C 4 1#32] [.host]).hostMoves [] ∧
    (0x3C % 4 = 0 ∧ 0x3C < 64 ∧ 0x3C ≠ 0x00 ∧ 0x3C ≠ 0x08) ∧ (0x04 % 4 = 0 ∧ 0x04 < 64) :=
  ⟨.inl rfl, by decide, by decide⟩

/-- A narrow access, a misaligned one, the last byte of the window and the first byte after it. -/
theorem witness_UndefinedAccessesAreRefused : (machine active [.read 0x04 1 none] []).hostMoves [] ∧
    (machine active [.write 0x3F 4 0#32] []).hostMoves [] ∧ (machine active [.read 64 4 none] []).hostMoves [] ∧
    refusedWith (step (machine active [.read 0x04 2 none] [])) .undefinedAccess = true ∧
    refusedWith (step (machine active [.read 0x3F 4 none] [])) .undefinedAccess = true ∧
    refusedWith (step (machine active [.write 64 4 0#32] [])) .outsideWindow = true :=
  ⟨.inr ⟨rfl, rfl, by decide⟩, .inr ⟨rfl, rfl, by decide⟩, .inr ⟨rfl, rfl, by decide⟩, by decide, by decide, by decide⟩

theorem witness_WaitEndsWhenNotBusy : (machine feeding [.wait] [.host]).hostMoves [] ∧ feeding.busy = true ∧
    (machine active [.wait] []).hostMoves [] ∧ active.busy = false :=
  ⟨.inl rfl, by decide, .inr ⟨rfl, rfl, by decide⟩, by decide⟩

theorem witness_WindowDecoding : Config.baseWf 0x40 ∧ windowOffset 0x40 0x40 = some 0 ∧ windowOffset 0x40 0x7F = some 63 ∧
    windowOffset 0x40 0x80 = none ∧ windowOffset 0x40 0x3F = none := by decide

/-- An active-low reset taken one edge late, and a bus whose accesses complete at the second edge. -/
def signals : Config.Signals := ⟨⟨.activeLow, fun seen => seen.getD 1 false⟩, ⟨fun seen => decide (2 ≤ seen.length)⟩⟩

/-- A read of CV_D, and a write of ERRINFO, with `rst` high. -/
def readPins : Pins := ⟨true, ⟨true, false, 0xF, 0#32⟩⟩
def writePins : Pins := ⟨true, ⟨true, true, 0x2, 1#32⟩⟩

/-- Reset in force; an access that waits, a read and a write that complete; no access asked for. -/
theorem witness_PinsDriveTheMachine :
    resetInForce signals.reset [readPins, { readPins with rst := false }] = true ∧
    resetInForce signals.reset [{ readPins with rst := false }] = false ∧
    accessAt signals [] readPins = none ∧ accessAt signals [readPins] readPins = some (.read 0x3C 4 none) ∧
    accessAt signals [readPins] writePins = some (.write 0x08 4 1#32) ∧
    busReady signals [] readPins = some false ∧ busReady signals [readPins] readPins = some true ∧
    busRdata signals [readPins] readPins (machine finished [] []) = some 0#32 ∧
    busRdata signals [{ readPins with rst := false }] readPins (machine finished [] []) = none ∧
    busOp ⟨false, true, 0x0, 0#32⟩ = none := by decide

theorem witness_ResetSetsEverything : (machine feeding [.wait] [.reset, .host]).turns = .reset :: [.host] := by decide

theorem witness_StepKeepsTheInvariant : feeding.Inv ∧ (compressing 63).Inv ∧ finished.Inv ∧ failed.Inv ∧
    nextWith (step (machine feeding [] [])) (fun t => decide t.eng.Inv) = true :=
  ⟨by decide, by decide, by decide, by decide, by decide⟩

theorem witness_ReachableStatesMeetR45 : ∃ t : State,
    Sys2Proof.core.run 2 { State.reset with pending := [.write 0x00 4 0x00000001#32, .write 0x00 4 0x00610003#32], turns := [] } =
      .next t := ⟨_, rfl⟩

/-- A step of each kind that changes what the statement is about. -/
theorem witness_DigestIsRetained : nextWith (step (machine latching [] [])) (fun t => decide (t.eng.digest = iv)) = true ∧
    nextWith (step (machine { finished with digest := iv } [] [.reset])) (fun t => decide (t.eng.digest = .zero)) = true := by
  decide

theorem witness_PhaseTransitions :
    nextWith (step (machine finished [.write 0x00 4 0x00000001#32] [])) (fun t => decide (t.eng.phase = .active)) = true ∧
    nextWith (step (machine latching [] [])) (fun t => decide (t.eng.phase = .done)) = true ∧
    nextWith (step (machine active [] [.reset])) (fun t => decide (t.eng.phase = .idle)) = true := by decide

theorem witness_SequencerTransitions :
    nextWith (step (machine { feeding with bcnt := 63 } [] [])) (fun t => decide (t.eng.seq = .round 0)) = true ∧
    nextWith (step (machine (compressing 62) [] [])) (fun t => decide (t.eng.seq = .round 63)) = true ∧
    nextWith (step (machine (compressing 63) [] [])) (fun t => decide (t.eng.seq = .ff)) = true ∧
    nextWith (step (machine { compressing 0 with seq := .ff } [] [])) (fun t => decide (t.eng.seq = .sidle)) = true ∧
    nextWith (step (machine (compressing 9) [] [.reset])) (fun t => decide (t.eng.seq = .sidle)) = true := by decide

theorem witness_WorkingRegisterWriters : (∀ ts, (machine feeding [] [.engine]).turns ≠ .reset :: ts) ∧
    nextWith (step (machine finished [.write 0x00 4 0x00000001#32] [])) (fun t => decide (t.eng.cv ≠ finished.cv)) = true ∧
    nextWith (step (machine { feeding with bcnt := 63 } [] [.engine])) (fun t => decide (t.eng.save ≠ feeding.save)) = true ∧
    nextWith (step (machine feeding [] [.engine])) (fun t => decide (t.eng.x ≠ feeding.x)) = true :=
  ⟨fun ts h => (nomatch h), by decide, by decide, by decide⟩

theorem witness_CvReadsTheDigestWhenDone : finished.Inv ∧ finished.phase = .done := by decide

/-- The empty message is held after an INIT, for FeedingExtendsTheMessage and FinalLatchesTheMd5. -/
theorem witness_Holds : active.Holds [] := by
  unfold Engine.Holds
  decide

theorem witness_ContextDigestIsMd5 : finished.busy = false ∧
    ∀ i ∈ [Instr.feedcu 0x4E2D#16, Instr.feedb 0x61#8], (∃ u, i = .feedcu u) ∨ (∃ b, i = .feedb b) := by
  refine ⟨by decide, fun i h => ?_⟩
  simp only [List.mem_cons, List.not_mem_nil, or_false] at h
  obtain rfl | rfl := h
  · exact .inl ⟨_, rfl⟩
  · exact .inr ⟨_, rfl⟩

theorem witness_WaitingMakesTimingIrrelevant :
    let s := machine feeding (politeProgram [.init, .feedb 0x61#8, .final]) [.host, .engine, .host]
    s.eng.Inv ∧ s.noReset ∧ s.pending = politeProgram [.init, .feedb 0x61#8, .final] :=
  ⟨by decide, by unfold State.noReset; decide, rfl⟩

theorem witness_DigestProcedureReturnsTheMd5 :
    let s := machine (compressing 7) (digestProcedure [0xD83D#16, 0xDE00#16]) [.host, .engine]
    s.eng.Inv ∧ s.noReset ∧ s.pending = digestProcedure [0xD83D#16, 0xDE00#16] :=
  ⟨by decide, by unfold State.noReset; decide, rfl⟩

theorem witness_DigestSerialisation : (serialise ⟨0xD98C1DD4#32, 0#32, 0#32, 0x7E42F8EC#32⟩)[0]? = some 0xD4#8 ∧
    (serialise ⟨0xD98C1DD4#32, 0#32, 0#32, 0x7E42F8EC#32⟩)[15]? = some 0x7E#8 := by decide

theorem witness_AssembledAccessesAreDefined : (assemble (.digest ['a'] ⟨['w'], ['x'], ['y'], ['z']⟩)).isSome = true ∧ assemble (.feedb 0x100) = none := by
  decide

theorem witness_InstancesShareNothing : ∃ sys',
    stepAt 1 [machine active [] [], machine feeding [] []] = .next sys' ∧
    [machine active [] [], machine feeding [] []][1]? = some (machine feeding [] []) :=
  ⟨[machine active [] [], { machine feeding [] [] with eng := feeding.absorb }], rfl, rfl⟩

end Sys2Proof.Tests
end

section
/-! The rotation of R10: `rotl` is the library's rotation, read bit by bit. -/

namespace Sys2Proof.Machine

/-- The amounts R10 speaks of lie below the word's width, where reducing the amount modulo 32 changes nothing. -/
theorem rotl_eq_rotateLeft (a : Word) {s : Nat} (hs : s < 32) : rotl a s = a.rotateLeft s := by
  rw [rotl, BitVec.rotateLeft_def, Nat.mod_eq_of_lt hs]

/-- The low `s` bits of a rotated word are the bits that left at the top. -/
theorem getLsbD_rotl_of_lt (a : Word) {s i : Nat} (hs : s < 32) (hi : i < s) :
    (rotl a s).getLsbD i = a.getLsbD (32 - s + i) := by
  rw [rotl_eq_rotateLeft a hs, BitVec.getLsbD_rotateLeft_of_le hs, decide_eq_true hi, cond_true]

/-- The bits of a rotated word from `s` up are the word's own, moved up by `s`. -/
theorem getLsbD_rotl_of_le (a : Word) {s i : Nat} (hsi : s ≤ i) (hi : i < 32) :
    (rotl a s).getLsbD i = a.getLsbD (i - s) := by
  have hs : s < 32 := Nat.lt_of_le_of_lt hsi hi
  rw [rotl_eq_rotateLeft a hs, BitVec.getLsbD_rotateLeft_of_le hs, decide_eq_false (Nat.not_lt.mpr hsi), cond_false,
    decide_eq_true hi, Bool.true_and]

/-- Settles O28: bit `k` either moves up within the word or, when `k + s` passes the top, re-enters at the bottom. -/
theorem rotationWraps : Obligations.RotationWraps := by
  unfold Obligations.RotationWraps
  intro a s _ hs31 k hk
  rcases Nat.lt_or_ge (k + s) 32 with hstays | hwraps
  · rw [Nat.mod_eq_of_lt hstays, getLsbD_rotl_of_le a (Nat.le_add_left s k) hstays, Nat.add_sub_cancel]
  · have hmod : (k + s) % 32 = k + s - 32 := by omega
    have hback : 32 - s + (k + s - 32) = k := by omega
    rw [hmod, getLsbD_rotl_of_lt a (by omega) (by omega), hback]

end Sys2Proof.Machine

end

section
/-! Reads of the register window (R37, R38, R54): the fields of the words composed from the state, the value a read
returns, and the one step in which the host's read completes. -/

namespace Sys2Proof.Machine

/-! ### Fields of a word composed with `place` -/

theorem getLsbD_place {n : Nat} (lo : Nat) (v : BitVec n) {i : Nat} (hi : i < 32) :
    (place lo v).getLsbD i = (decide (lo ≤ i) && v.getLsbD (i - lo)) := by
  by_cases hlo : lo ≤ i
  · simp [place, hi, hlo]
  · simp [place, hi, hlo, Nat.lt_of_not_le hlo]

theorem getElem_place {n : Nat} (lo : Nat) (v : BitVec n) {i : Nat} (hi : i < 32) :
    (place lo v)[i] = (decide (lo ≤ i) && v.getLsbD (i - lo)) := by
  rw [← BitVec.getLsbD_eq_getElem, getLsbD_place lo v hi]

/-- A placed field read at its own place. -/
theorem extractLsb'_place_self {n lo : Nat} (v : BitVec n) (h : lo + n ≤ 32) : (place lo v).extractLsb' lo n = v := by
  ext i hi
  rw [BitVec.getElem_extractLsb', getLsbD_place lo v (by omega)]
  simp [BitVec.getLsbD_eq_getElem hi]

/-- A placed field leaves zero in every field it does not overlap. -/
theorem extractLsb'_place_disjoint {n lo lo' k : Nat} (v : BitVec n) (hk : lo' + k ≤ 32)
    (h : lo' + k ≤ lo ∨ lo + n ≤ lo') : (place lo v).extractLsb' lo' k = 0 := by
  ext i hi
  rw [BitVec.getElem_extractLsb', getLsbD_place lo v (by omega)]
  obtain habove | hbelow := h
  · simp [show ¬ lo ≤ lo' + i by omega]
  · simp [BitVec.getLsbD_of_ge v (lo' + i - lo) (by omega)]

/-- The fields of STATUS above bit 0 (R37). -/
theorem statusWord_fields (e : Engine) (b : BitVec 6) :
    (statusWord e b).extractLsb' 1 2 = e.phase.code ∧ (statusWord e b).getLsbD 3 = e.errValid ∧
    (statusWord e b).extractLsb' 4 4 = 0#4 ∧ (statusWord e b).extractLsb' 8 6 = b ∧
    (statusWord e b).extractLsb' 14 18 = 0#18 := by
  simp [statusWord, BitVec.extractLsb'_or, extractLsb'_place_self, extractLsb'_place_disjoint, getElem_place]

/-- The fields of ERRINFO (R38). -/
theorem errinfoWord_fields (e : Engine) :
    (errinfoWord e).getLsbD 0 = e.errValid ∧ (errinfoWord e).getLsbD 1 = e.errOvf ∧
    (errinfoWord e).extractLsb' 2 2 = 0#2 ∧ (errinfoWord e).extractLsb' 4 4 = e.errCode ∧
    (errinfoWord e).extractLsb' 8 24 = 0#24 := by
  simp [errinfoWord, BitVec.extractLsb'_or, extractLsb'_place_self, extractLsb'_place_disjoint, getElem_place]

/-! ### The value a read returns (R54, R56, R107) -/

/-- A register that shows no progress is exact at all times. -/
theorem Engine.readValue_of_not_progress (e : Engine) (n : Nat) {r : Reg} (h : isProgress r = false) :
    e.readValue n r = e.regValue r := by
  simp [Engine.readValue, Engine.draws, h]

/-- Every register is exact while BUSY = 0. -/
theorem Engine.readValue_of_not_busy {e : Engine} (h : e.busy = false) (n : Nat) (r : Reg) :
    e.readValue n r = e.regValue r := by
  simp [Engine.readValue, Engine.draws, h]

/-- STATUS is exact but for its BCNT field, which is exact while BUSY = 0 (R37, R56). -/
theorem Engine.readValue_status (e : Engine) (n : Nat) :
    ∃ b, e.readValue n .status = statusWord e b ∧ (e.busy = false → b = e.bcntField) := by
  cases hb : e.busy with
  | true => exact ⟨Config.freeBcnt n, by simp [Engine.readValue, Engine.draws, hb, isProgress], nofun⟩
  | false => exact ⟨e.bcntField, e.readValue_of_not_busy hb n .status, fun _ => rfl⟩

/-- The host's variables after a read: the one it names has the value, if it names one, and no other changes (R89). -/
theorem varValue_assign (dst : Option VarName) (v : Word) (vs : List HostVar) (x : VarName) :
    varValue x (assign dst v vs) = if dst = some x then some v else varValue x vs := by
  cases dst with
  | none => simp [assign]
  | some y =>
    by_cases hxy : x = y
    · subst hxy; rw [varValue_assign_self, if_pos rfl]
    · rw [varValue_assign_other hxy, if_neg (by simpa using Ne.symm hxy)]

/-! ### The step in which the host reads (R54, R62) -/

theorem step_of_hostMoves {s : State} {ts : List Turn} (h : s.hostMoves ts) :
    step s = hostTurn { s with turns := ts } := by
  obtain hts | ⟨hts, rfl, hb⟩ := h
  · simp only [step, hts]
  · have hs : { s with turns := [] } = s := by rw [← hts]
    simp [hs, step, hts, hb]

/-- The host's read of a register completes in one step, and returns the register's value to the list of reads and to
the variable it names. -/
theorem step_read {s : State} {r : Reg} {dst : Option VarName} {rest : List HostOp} {ts : List Turn}
    (hp : s.pending = .read r.offset 4 dst :: rest) (hm : s.hostMoves ts) :
    ∃ t, step s = .next t ∧ t.eng = s.eng ∧ t.pending = rest ∧ t.turns = ts ∧
      t.reads = s.reads ++ [⟨r.offset, s.eng.readValue s.draws r⟩] ∧
      t.vars = assign dst (s.eng.readValue s.draws r) s.vars := by
  have hwf : (aligned r.offset 4 && inWindow r.offset) = true := by cases r <;> rfl
  refine ⟨readOp r.offset dst r (s.popped rest ts), ?_, readOp_eng .., readOp_pending .., readOp_turns ..,
    readOp_reads .., readOp_vars ..⟩
  simp only [step_of_hostMoves hm, hostTurn, hp, access_of_wf hwf, regOf_offset, State.popped]

/-- Settles O37: the fields are those of the words that STATUS and ERRINFO are composed of. -/
theorem statusAndErrinfoFields : Obligations.StatusAndErrinfoFields := by
  unfold Obligations.StatusAndErrinfoFields
  intro s dst rest ts hm
  constructor
  · intro hp
    obtain ⟨t, hstep, -, -, -, hreads, -⟩ := step_read (r := .status) hp hm
    obtain ⟨b, hv, hexact⟩ := s.eng.readValue_status s.draws
    obtain ⟨hphase, herr, hlow, hbcnt, hhigh⟩ := statusWord_fields s.eng b
    have hbusy := readValue_status_bit0 s.eng s.draws
    rw [hv] at hreads hbusy
    refine ⟨t, _, hstep, hreads, hbusy, ?_, herr, hlow, hhigh, fun hb => ?_⟩
    · rw [hphase]; cases s.eng.phase <;> rfl
    · rw [hbcnt, hexact hb]; simp [Engine.bcntField]
  · intro hp
    obtain ⟨t, hstep, -, -, -, hreads, -⟩ := step_read (r := .errinfo) hp hm
    rw [s.eng.readValue_of_not_progress s.draws rfl] at hreads
    exact ⟨t, _, hstep, hreads, errinfoWord_fields s.eng⟩

/-- Settles O38: the value is the register's own where it shows no progress, and for every register while BUSY = 0. -/
theorem readsReturnTheState : Obligations.ReadsReturnTheState := by
  unfold Obligations.ReadsReturnTheState
  intro s r dst rest ts hp hm
  obtain ⟨t, hstep, heng, hpending, hturns, hreads, hvars⟩ := step_read hp hm
  have hfixed := @Engine.readValue_of_not_progress s.eng s.draws r
  refine ⟨t, s.eng.readValue s.draws r, hstep, heng, hpending, hturns, hreads, fun x => ?_, ?_, ?_, ?_, ?_, ?_,
    ?_, ?notBusy⟩
  case notBusy =>
    intro hb
    rw [Engine.readValue_of_not_busy hb]
    refine ⟨?_, ?_, ?_, ?_, ?_, ?_⟩ <;> rintro rfl <;> rfl
  · rw [hvars, varValue_assign]
  · rintro (rfl | rfl | rfl) <;> exact hfixed rfl
  all_goals rintro rfl; exact hfixed rfl

end Sys2Proof.Machine
end

section
/-! Who writes what (R21-R32): what one step can do to the engine, said once, and which of these moves changes which
register. -/

namespace Sys2Proof.Machine

/-! ### What the commands change (R101-R105) -/

section execute
variable (i : Instr) (e : Engine)

@[simp] theorem Engine.execute_save : (e.execute i).save = e.save := by cases i <;> rfl
@[simp] theorem Engine.execute_seq : (e.execute i).seq = e.seq := by cases i <;> rfl
@[simp] theorem Engine.execute_digest : (e.execute i).digest = e.digest := by cases i <;> rfl

variable {i}

/-- INIT alone writes `phase`, A..D and X. -/
theorem Engine.execute_phase_cv_x (h : i ≠ .init) :
    (e.execute i).phase = e.phase ∧ (e.execute i).cv = e.cv ∧ (e.execute i).x = e.x := by
  cases i with
  | init => exact absurd rfl h
  | nop => exact ⟨rfl, rfl, rfl⟩
  | feedcu u => exact ⟨rfl, rfl, rfl⟩
  | feedb b => exact ⟨rfl, rfl, rfl⟩
  | final => exact ⟨rfl, rfl, rfl⟩

end execute

/-! ### The write that submits an INIT (R35, R83) -/

/-- An aligned offset of the window is the offset of the register it selects. -/
theorem offset_regOf {off : Nat} (ha : off % 4 = 0) (hw : off < 64) : (regOf off).offset = off := by
  have h : ∀ off < 64, off % 4 = 0 → (regOf off).offset = off := by decide
  exact h off hw ha

theorem eq_one_of_decode_init {w : Word} (h : decode w = .command .init) : w = 1#32 := by
  have hw : w.toNat = 1 := by
    rw [decode_eq_toNat] at h
    grind
  exact BitVec.eq_of_toNat_eq hw

/-! ### What a step can do to the engine -/

/-- `e'` is `e` but for the error record, which is as it was, has one more rejection, or is cleared (R234, R237). -/
inductive Engine.RecordUpdate (e e' : Engine) : Prop where
  | kept (h : e' = e)
  | rejected (c : InvalidArgument) (w : Word) (h : e' = e.recordError c w)
  | cleared (h : e' = e.clearErrors)

theorem Engine.recordUpdate_writeErrinfo (v : Word) (e : Engine) : e.RecordUpdate (e.writeErrinfo v) := by
  unfold Engine.writeErrinfo
  split
  · exact .cleared rfl
  · exact .kept rfl

/-- An update of the error record changes nothing else. -/
theorem Engine.RecordUpdate.eq {e e' : Engine} (h : e.RecordUpdate e') :
    e' = { e with
      errValid := e'.errValid, errOvf := e'.errOvf, errCode := e'.errCode, errCmd := e'.errCmd } := by
  obtain rfl | ⟨c, w, rfl⟩ | rfl := h
  · rfl
  · unfold Engine.recordError; split <;> rfl
  · rfl

/-- What one step can make of the engine of `s`: an update of the error record only, an accepted INIT or other command,
a micro-step, or reset. -/
inductive EngineChange (s : State) (e' : Engine) : Prop where
  | record (h : s.eng.RecordUpdate e')
  | init (rest : List HostOp) (ts : List Turn) (hp : s.pending = .write 0x00 4 0x00000001#32 :: rest)
      (hm : s.hostMoves ts) (hb : s.eng.busy = false) (h : e' = s.eng.startContext)
  | command (i : Instr) (hi : i ≠ .init) (hacc : rejection i s.eng = none) (h : e' = s.eng.execute i)
  | microStep (h : s.eng.step = some e')
  | reset (ts : List Turn) (hts : s.turns = .reset :: ts) (h : e' = .reset)

/-- The turn of the host never moves the engine on: it updates the record or gives it a command. -/
theorem hostTurn_engineChange {s t : State} {ts : List Turn} (hm : s.hostMoves ts)
    (h : hostTurn { s with turns := ts } = .next t) : EngineChange s t.eng := by
  obtain rfl | ⟨off, width, dst, rest, -, rfl⟩ | ⟨rest, -, rfl⟩ |
      ⟨off, v, rest, hp, ha, hw, ⟨hcmd, h⟩ | ⟨-, rfl⟩ | ⟨-, -, rfl⟩⟩ := hostTurn_cases h
  · exact .record (.kept rfl)
  · exact .record (.kept (readOp_eng ..))
  · exact .record (.kept (pollOp_eng ..))
  · obtain ⟨e', rfl, ⟨c, w, he⟩ | ⟨i, hd, hacc, he⟩⟩ := submit_cases h
    · exact .record (.rejected c w he)
    · by_cases hi : i = .init
      · subst hi he
        obtain rfl : off = 0x00 := by rw [← offset_regOf ha hw, hcmd]; rfl
        obtain rfl := eq_one_of_decode_init hd
        exact .init rest ts hp hm (busy_of_rejection_none hacc) rfl
      · exact .command i hi hacc he
  · exact .record (s.eng.recordUpdate_writeErrinfo v)
  · exact .record (.kept rfl)

/-- What a step can do to the engine, whoever moves. -/
theorem step_engineChange {s t : State} (h : step s = .next t) : EngineChange s t.eng := by
  obtain ⟨ts, ⟨hm, h⟩ | h | ⟨hts, rfl⟩⟩ := step_cases h
  · exact hostTurn_engineChange hm h
  · obtain ⟨-, rfl⟩ | ⟨e', he, rfl⟩ := engineTurn_cases h
    · exact .record (.kept rfl)
    · exact .microStep he
  · exact .reset ts hts rfl

/-! ### The statements -/

/-- Settles O48: of all moves only the latch and reset assign DIGEST. -/
theorem digestIsRetained : Obligations.DigestIsRetained := by
  unfold Obligations.DigestIsRetained
  intro s t hstep
  cases step_engineChange hstep with
  | record h => exact .inl (by rw [h.eq])
  | init rest ts hp hm hb h => exact .inl (by simp [h])
  | command i hi hacc h => exact .inl (by simp [h])
  | microStep h =>
    obtain ⟨i, -, he⟩ | ⟨-, he⟩ | ⟨q, rest, -, -, -, he⟩ | ⟨q, rest, -, -, -, he⟩ | ⟨hs, hq, hf, he⟩ :=
      Engine.step_cases h
    · exact .inl (by simp [he])
    · exact .inl (by simp [he])
    · exact .inl (by simp [he])
    · exact .inl (by simp [he])
    · exact .inr (.inl ⟨hs, hq, hf, he, by simp [he]⟩)
  | reset ts hts h => exact .inr (.inr ⟨ts, hts, h⟩)

/-- Settles O49: of all moves only reset, INIT and the latch assign `phase`. -/
theorem phaseTransitions : Obligations.PhaseTransitions := by
  unfold Obligations.PhaseTransitions
  intro s t hstep hne
  cases step_engineChange hstep with
  | record h => exact absurd (by rw [h.eq]) hne
  | init rest ts hp hm hb h => exact .inr (.inl ⟨hb, by simp [h], rest, ts, hp, hm⟩)
  | command i hi hacc h => exact absurd (h ▸ (s.eng.execute_phase_cv_x hi).1) hne
  | microStep h =>
    obtain ⟨i, -, he⟩ | ⟨-, he⟩ | ⟨q, rest, -, -, -, he⟩ | ⟨q, rest, -, -, -, he⟩ | ⟨hs, hq, hf, he⟩ :=
      Engine.step_cases h
    · exact absurd (by simp [he]) hne
    · exact absurd (by simp [he]) hne
    · exact absurd (by simp [he]) hne
    · exact absurd (by simp [he]) hne
    · exact .inr (.inr ⟨by simp [Engine.enabled, hs, hq, hf], h, he, by simp [he]⟩)
  | reset ts hts h => exact .inl ⟨⟨ts, hts⟩, by rw [h]; rfl⟩

/-- What follows an operation: the next one, or FF after the last (R27). -/
theorem nextSeq_cases (i : Fin 64) :
    (∃ j : Fin 64, j.val = i.val + 1 ∧ nextSeq i = .round j) ∨ (i = 63 ∧ nextSeq i = .ff) := by
  by_cases h : i.val < 63
  · exact .inl ⟨⟨i.val + 1, by omega⟩, rfl, by simp [nextSeq, h]⟩
  · exact .inr ⟨by omega, by simp [nextSeq, h]⟩

/-- Settles O50: of all moves only the micro-steps and reset assign `seq`. -/
theorem sequencerTransitions : Obligations.SequencerTransitions := by
  unfold Obligations.SequencerTransitions
  intro s t hstep hne
  cases step_engineChange hstep with
  | record h => exact absurd (by rw [h.eq]) hne
  | init rest ts hp hm hb h => exact absurd (by simp [h]) hne
  | command i hi hacc h => exact absurd (by simp [h]) hne
  | microStep h =>
    refine .inr ⟨h, ?_⟩
    obtain ⟨i, hs, he⟩ | ⟨hs, he⟩ | ⟨q, rest, -, -, -, he⟩ | ⟨q, rest, hs, -, hb, he⟩ | ⟨-, -, -, he⟩ :=
      Engine.step_cases h
    · obtain ⟨j, hj, hnext⟩ | ⟨rfl, hnext⟩ := nextSeq_cases i
      · exact .inr (.inl ⟨i, j, hs, hj, by simp [he, hnext]⟩)
      · exact .inr (.inr (.inl ⟨hs, by simp [he, hnext]⟩))
    · exact .inr (.inr (.inr ⟨hs, by simp [he]⟩))
    · exact absurd (by simp [he]) hne
    · exact .inl ⟨hs, by omega, by simp [he]⟩
    · exact absurd (by simp [he]) hne
  | reset ts hts h => exact .inl ⟨⟨ts, hts⟩, by rw [h]; rfl⟩

/-- Byte `p` of X after a byte is put at place `k`: that byte, or the one that stood there. A place past the block
names no byte (log 8). -/
theorem byteOf_putByte (x : Vector Word 16) (k : Nat) (b : Byte) (p : Fin 64) :
    byteOf ((putByte x k b).get ⟨p / 4, by omega⟩) (p % 4) =
      if p.val = k then b else byteOf (x.get ⟨p / 4, by omega⟩) (p % 4) := by
  by_cases hk : k < 64
  · rw [putByte_get x k hk]
    split
    · next hword =>
      rw [byteOf_setByteOf _ _ _ _ (by omega) (by omega)]
      exact if_congr (by simp only at hword; omega) rfl rfl
    · next hword => rw [if_neg (by rintro rfl; exact hword rfl)]
  · have hpast : putByte x k b = x := by unfold putByte; rw [dif_neg (by omega)]
    rw [hpast, if_neg (by omega)]

/-- Absorb is the micro-step that a queued byte enables. -/
theorem Engine.enabled_absorb {e : Engine} {q : QEntry} {rest : List QEntry} (hs : e.seq = .sidle)
    (hq : e.queue = q :: rest) : e.enabled = some .absorb := by
  simp [Engine.enabled, hs, hq]

/-- Settles O51: the writers of A..D, AA..DD and X among the moves. -/
theorem workingRegisterWriters : Obligations.WorkingRegisterWriters := by
  unfold Obligations.WorkingRegisterWriters
  intro s t hstep hnr
  cases step_engineChange hstep with
  | record h => rw [h.eq]; exact ⟨absurd rfl, absurd rfl, absurd rfl⟩
  | init rest ts hp hm hb h =>
    refine ⟨fun _ => .inl ⟨hb, by simp [h], rest, ts, hp, hm⟩, fun hne => absurd (by simp [h]) hne,
      fun _ => .inr ⟨by simp [h], .inr ⟨hb, rest, ts, hp, hm⟩⟩⟩
  | command i hi hacc h =>
    obtain ⟨-, hcv, hx⟩ := s.eng.execute_phase_cv_x hi
    rw [h]
    exact ⟨absurd hcv, absurd (s.eng.execute_save i), absurd hx⟩
  | microStep h =>
    obtain ⟨i, hs, he⟩ | ⟨hs, he⟩ | ⟨q, rest, hs, hq, hb, he⟩ | ⟨q, rest, hs, hq, hb, he⟩ | ⟨hs, hq, hf, he⟩ :=
      Engine.step_cases h
    · exact ⟨fun _ => .inr ⟨h, .inl ⟨i, hs, by simp [he]⟩⟩, absurd (by simp [he]), absurd (by simp [he])⟩
    · exact ⟨fun _ => .inr ⟨h, .inr ⟨hs, by simp [he]⟩⟩, absurd (by simp [he]),
        fun _ => .inr ⟨by simp [he], .inl ⟨hs, h⟩⟩⟩
    · exact ⟨absurd (by simp [he]), absurd (by simp [he]),
        fun _ => .inl ⟨h, hs, q, rest, hq, by simp [he], fun p => by simp [he, byteOf_putByte]⟩⟩
    · exact ⟨absurd (by simp [he]), fun _ => ⟨h, Engine.enabled_absorb hs hq, by omega, by simp [he]⟩,
        fun _ => .inl ⟨h, hs, q, rest, hq, by simp [he], fun p => by simp [he, byteOf_putByte]⟩⟩
    · exact ⟨absurd (by simp [he]), absurd (by simp [he]), absurd (by simp [he])⟩
  | reset ts hts h => exact absurd hts (hnr ts)

end Sys2Proof.Machine
end

section
/-! The invariant (R45): while a context is active the whole of it says how the queue, the block buffer and LEN agree;
every command and every micro-step keeps that, and reset, INIT and the latch enter and leave it. -/

namespace Sys2Proof.Machine

/-- Settles O44: reset is one transition, and every register of the engine after it shows 0. -/
theorem resetSetsEverything : Obligations.ResetSetsEverything := by
  unfold Obligations.ResetSetsEverything
  refine ⟨fun s ts hts => ⟨resetEvent { s with turns := ts }, by simp only [step, hts], ?_⟩, fun r => ?_, rfl⟩
  · rw [resetEvent_eng, resetEvent_pending, resetEvent_turns]
    exact ⟨rfl, rfl, rfl, rfl, rfl, rfl, rfl, rfl, rfl, rfl, rfl, rfl, rfl, rfl, rfl, rfl, rfl⟩
  · cases r <;> rfl

/-- Settles O45: every conjunct speaks of a literal. -/
theorem resetMeetsTheInvariant : Obligations.ResetMeetsTheInvariant := by
  unfold Obligations.ResetMeetsTheInvariant
  decide

/-! ### The error record (R38, R39, R232) -/

/-- The error record in an order the invariant allows: a cleared one reads 0, a recorded code is one of 1..4. -/
structure Engine.RecordOk (e : Engine) : Prop where
  cleared : e.errValid = false → e.errOvf = false ∧ e.errCode = 0 ∧ e.errCmd = 0
  code : e.errValid = true → 1 ≤ e.errCode.toNat ∧ e.errCode.toNat ≤ 4

theorem Engine.Inv.recordOk {e : Engine} (h : e.Inv) : e.RecordOk := by
  obtain ⟨-, -, -, -, -, -, hcleared, hcode⟩ := h
  exact ⟨hcleared, hcode⟩

/-- The rest of the invariant does not look at the error record. -/
theorem Engine.Inv.of_record_eq {e e' : Engine} (h : e.Inv) (hok : e'.RecordOk)
    (he : e' = { e with
      errValid := e'.errValid, errOvf := e'.errOvf, errCode := e'.errCode, errCmd := e'.errCmd }) : e'.Inv := by
  obtain ⟨hspec, hcounted, hbytes, hagree, hpad, hempty, -, -⟩ := h
  rw [he]
  exact ⟨hspec, hcounted, hbytes, hagree, hpad, hempty, hok.cleared, hok.code⟩

theorem codeOf_range (c : InvalidArgument) : 1 ≤ (codeOf c).toNat ∧ (codeOf c).toNat ≤ 4 := by cases c <;> decide

theorem Engine.RecordOk.update {e e' : Engine} (h : e.RecordOk) (hu : e.RecordUpdate e') : e'.RecordOk := by
  obtain rfl | ⟨c, w, rfl⟩ | rfl := hu
  · exact h
  · cases hv : e.errValid with
    | true => rw [Engine.recordError_of_valid hv]; exact ⟨fun hn => by simp [hv] at hn, h.code⟩
    | false => rw [Engine.recordError_of_clear hv]; exact ⟨nofun, fun _ => codeOf_range c⟩
  · exact ⟨fun _ => ⟨rfl, rfl, rfl⟩, nofun⟩

theorem Engine.RecordUpdate.inv {e e' : Engine} (hu : e.RecordUpdate e') (h : e.Inv) : e'.Inv :=
  h.of_record_eq (h.recordOk.update hu) hu.eq

/-! ### An active context -/

/-- The invariant of an engine in phase ACTIVE, each of its independent facts by name: when bcnt is 64 and when below
(I1, I2), which entries Q holds (I4) and how many (I7), that LEN counts whole bytes and, before FINAL, agrees with bcnt
(I5), that the padding ends at a block's end, and that an empty block buffer is zero. -/
structure Engine.ActiveInv (e : Engine) : Prop where
  full : e.seq ≠ .sidle → e.bcnt = 64
  filling : e.seq = .sidle → e.bcnt ≤ 63
  kind : ∀ q ∈ e.queue, q.counted = !e.fin
  short : e.queue.length ≤ 72
  bytes : e.len.toNat % 8 = 0
  agree : e.fin = false → e.bcnt % 64 = (e.len.toNat / 8) % 64
  padded : e.fin = true → (e.bcnt + e.queue.length) % 64 = 0
  empty : e.seq = .sidle → e.bcnt = 0 → e.x = Vector.replicate 16 0
  record : e.RecordOk

theorem Engine.inv_iff_activeInv {e : Engine} (hp : e.phase = .active) : e.Inv ↔ e.ActiveInv := by
  constructor
  · rintro ⟨⟨hfull, hfilling, -, hpadding, -, -, hshort⟩, hcounted, hbytes, hagree, hpadded, hempty, hcleared, hcode⟩
    refine ⟨hfull, hfilling, fun q hq => ?_, hshort, hbytes, hagree hp, hpadded, hempty, hcleared, hcode⟩
    cases hf : e.fin with
    | true => exact hpadding hf q hq
    | false => exact hcounted hf q hq
  · intro h
    refine ⟨⟨h.full, h.filling, absurd hp, fun hf q hq => ?_, fun _ hb => ?_, fun hd => ?_, h.short⟩,
      fun hf q hq => ?_, h.bytes, fun _ => h.agree, h.padded, h.empty, h.record.cleared, h.record.code⟩
    · rw [h.kind q hq, hf]; rfl
    · obtain ⟨hs, -, hf⟩ := (Engine.busy_eq_false_iff e).1 hb
      rw [← h.agree hf, Nat.mod_eq_of_lt (by have := h.filling hs; omega)]
    · rw [hp] at hd; cases hd
    · rw [h.kind q hq, hf]; rfl

theorem Engine.ActiveInv.inv {e : Engine} (h : e.ActiveInv) (hp : e.phase = .active) : e.Inv :=
  (Engine.inv_iff_activeInv hp).2 h

/-- Only an engine in phase ACTIVE is busy (I3). -/
theorem Engine.Inv.active_of_busy {e : Engine} (h : e.Inv) (hb : e.busy = true) : e.phase = .active := by
  obtain ⟨⟨-, -, hrest, -⟩, -⟩ := h
  by_contra hp
  rw [(Engine.busy_eq_false_iff e).2 ?_] at hb
  · cases hb
  · obtain ⟨hq, hs, hf⟩ := hrest hp
    exact ⟨hs, hq, hf⟩

theorem Engine.busy_of_step {e e' : Engine} (h : e.step = some e') : e.busy = true := by
  by_contra hb
  rw [Engine.step_quiescent (by simpa using hb)] at h
  cases h

/-! ### The commands -/

/-- INIT starts a context in any phase (R102). -/
theorem Engine.RecordOk.startContext {e : Engine} (h : e.RecordOk) (hb : e.busy = false) :
    e.startContext.ActiveInv := by
  obtain ⟨hs, hq, hf⟩ := (Engine.busy_eq_false_iff e).1 hb
  exact {
    full := fun hne => absurd hs hne
    filling := fun _ => by simp
    kind := by simp [hq]
    short := by simp [hq]
    bytes := rfl
    agree := fun _ => by simp
    padded := by simp [hf]
    empty := fun _ _ => rfl
    record := ⟨h.cleared, h.code⟩ }

/-- Message bytes that enter an empty queue (R103, R104). -/
theorem Engine.ActiveInv.enqueue {e : Engine} (h : e.ActiveInv) (hb : e.busy = false) {bs : List Byte}
    (hlen : bs.length ≤ 72) : (e.enqueue (countedEntries bs)).ActiveInv := by
  obtain ⟨hs, hq, hf⟩ := (Engine.busy_eq_false_iff e).1 hb
  exact {
    full := h.full
    filling := h.filling
    kind := by simp [hq, hf, countedEntries]
    short := by simpa [hq, countedEntries] using hlen
    bytes := h.bytes
    agree := h.agree
    padded := by simp [hf]
    empty := h.empty
    record := ⟨h.record.cleared, h.record.code⟩ }

/-- With the padding of R152 the message ends at a block's end. -/
theorem padZeros_fills (b : Nat) : (b + (9 + padZeros b)) % 64 = 0 ∧ padZeros b ≤ 63 := by
  unfold padZeros
  omega

/-- The padding that FINAL queues ends at a block's end (R152, R157). -/
theorem Engine.ActiveInv.finish {e : Engine} (h : e.ActiveInv) (hb : e.busy = false) : e.finish.ActiveInv := by
  obtain ⟨hs, hq, hf⟩ := (Engine.busy_eq_false_iff e).1 hb
  obtain ⟨hfills, hz⟩ := padZeros_fills e.bcnt
  have hlen : e.finish.queue.length = 9 + padZeros e.bcnt := by simp [hq, paddingEntries, padBytes_length]
  exact {
    full := h.full
    filling := h.filling
    kind := by simp [hq, paddingEntries]
    short := by omega
    bytes := h.bytes
    agree := by simp
    padded := fun _ => by rw [hlen]; exact hfills
    empty := h.empty
    record := ⟨h.record.cleared, h.record.code⟩ }

/-- An accepted command keeps the invariant. -/
theorem Engine.Inv.execute {e : Engine} {i : Instr} (h : e.Inv) (hacc : rejection i e = none) :
    (e.execute i).Inv := by
  have hb := busy_of_rejection_none hacc
  have hactive : needsActive i = true → e.phase = .active ∧ e.ActiveInv := fun hn =>
    have hp := active_of_rejection_none hacc hn
    ⟨hp, (Engine.inv_iff_activeInv hp).1 h⟩
  cases i with
  | nop => exact h
  | init => exact (h.recordOk.startContext hb).inv rfl
  | feedcu u =>
    obtain ⟨hp, ha⟩ := hactive rfl
    exact (ha.enqueue hb (by have := utf8Bytes_length u; omega)).inv hp
  | feedb b =>
    obtain ⟨hp, ha⟩ := hactive rfl
    exact (ha.enqueue hb (by simp)).inv hp
  | final =>
    obtain ⟨hp, ha⟩ := hactive rfl
    exact (ha.finish hb).inv hp

/-! ### The micro-steps -/

theorem Engine.ActiveInv.round {e : Engine} (h : e.ActiveInv) {i : Fin 64} (hs : e.seq = .round i) :
    (e.round i).ActiveInv := by
  have hnext : nextSeq i ≠ .sidle := by
    obtain ⟨j, -, hj⟩ | ⟨-, hj⟩ := nextSeq_cases i <;> simp [hj]
  exact {
    full := fun _ => h.full (by simp [hs])
    filling := fun hn => absurd hn hnext
    kind := h.kind
    short := h.short
    bytes := h.bytes
    agree := h.agree
    padded := h.padded
    empty := fun hn => absurd hn hnext
    record := ⟨h.record.cleared, h.record.code⟩ }

theorem Engine.ActiveInv.feedForward {e : Engine} (h : e.ActiveInv) (hs : e.seq = .ff) : e.feedForward.ActiveInv := by
  have hb : e.bcnt = 64 := h.full (by simp [hs])
  exact {
    full := fun hn => absurd rfl hn
    filling := fun _ => by simp
    kind := h.kind
    short := h.short
    bytes := h.bytes
    agree := fun hf => by have := h.agree hf; simpa [hb] using this
    padded := fun hf => by have := h.padded hf; simpa [hb] using this
    empty := fun _ _ => rfl
    record := ⟨h.record.cleared, h.record.code⟩ }

/-- LEN after one more message byte, as a count of bytes (R139): the wrap at 2^64 bits is a whole number of blocks. -/
theorem len_add_byte {l : Long} (h : l.toNat % 8 = 0) :
    (l + 8).toNat % 8 = 0 ∧ (l + 8).toNat / 8 % 64 = (l.toNat / 8 + 1) % 64 := by
  rw [BitVec.toNat_add, show (8 : Long).toNat = 8 from rfl]
  omega

/-- What Absorb's byte leaves true whatever comes after it: the part of the invariant that does not look at `seq`. -/
theorem Engine.ActiveInv.takeByte_counts {e : Engine} {q : QEntry} {rest : List QEntry} (h : e.ActiveInv)
    (hq : e.queue = q :: rest) :
    (∀ p ∈ rest, p.counted = !e.fin) ∧ rest.length ≤ 72 ∧ (e.takeByte q rest).len.toNat % 8 = 0 ∧
    (e.fin = false → (e.bcnt + 1) % 64 = ((e.takeByte q rest).len.toNat / 8) % 64) ∧
    (e.fin = true → (e.bcnt + 1 + rest.length) % 64 = 0) := by
  have hkind := h.kind
  have hshort := h.short
  have hpadded := h.padded
  simp only [hq, List.forall_mem_cons, List.length_cons] at hkind hshort hpadded
  obtain ⟨hhead, htail⟩ := hkind
  obtain ⟨hbytes, hcount⟩ := len_add_byte h.bytes
  simp only [Engine.takeByte_len, hhead]
  cases hf : e.fin with
  | true => exact ⟨hf ▸ htail, by omega, h.bytes, nofun, fun _ => by have := hpadded hf; omega⟩
  | false =>
    refine ⟨hf ▸ htail, by omega, hbytes, fun _ => ?_, nofun⟩
    have := h.agree hf
    simp only [Bool.not_false, if_true]
    omega

/-- A byte that does not fill the block. -/
theorem Engine.ActiveInv.takeByte {e : Engine} {q : QEntry} {rest : List QEntry} (h : e.ActiveInv)
    (hs : e.seq = .sidle) (hq : e.queue = q :: rest) (hb : e.bcnt + 1 ≠ 64) : (e.takeByte q rest).ActiveInv := by
  obtain ⟨hkind, hshort, hbytes, hagree, hpadded⟩ := h.takeByte_counts hq
  have hroom := h.filling hs
  exact {
    full := fun hn => absurd hs hn
    filling := fun _ => by simp only [Engine.takeByte_bcnt]; omega
    kind := hkind
    short := hshort
    bytes := hbytes
    agree := hagree
    padded := hpadded
    empty := fun _ hz => by simp at hz
    record := ⟨h.record.cleared, h.record.code⟩ }

/-- The byte that fills the block starts its compression (R140). -/
theorem Engine.ActiveInv.takeByte_startBlock {e : Engine} {q : QEntry} {rest : List QEntry} (h : e.ActiveInv)
    (hq : e.queue = q :: rest) (hb : e.bcnt + 1 = 64) : (e.takeByte q rest).startBlock.ActiveInv := by
  obtain ⟨hkind, hshort, hbytes, hagree, hpadded⟩ := h.takeByte_counts hq
  exact {
    full := fun _ => hb
    filling := nofun
    kind := hkind
    short := hshort
    bytes := hbytes
    agree := hagree
    padded := hpadded
    empty := nofun
    record := ⟨h.record.cleared, h.record.code⟩ }

/-- The latch comes with the block buffer empty, and leaves an engine at rest in phase DONE (I3, I6). -/
theorem Engine.ActiveInv.latch {e : Engine} (h : e.ActiveInv) (hs : e.seq = .sidle) (hq : e.queue = [])
    (hf : e.fin = true) : e.latch.Inv := by
  have hb : e.bcnt = 0 := by
    have hfilling := h.filling hs
    have hpadded := h.padded hf
    simp only [hq, List.length_nil] at hpadded
    omega
  exact ⟨⟨h.full, h.filling, fun _ => ⟨hq, hs, rfl⟩, nofun, nofun, fun _ => ⟨rfl, hb⟩, h.short⟩,
    by simp [hq], h.bytes, nofun, nofun, h.empty, h.record.cleared, h.record.code⟩

/-- A micro-step keeps the invariant. -/
theorem Engine.Inv.microStep {e e' : Engine} (h : e.Inv) (hstep : e.step = some e') : e'.Inv := by
  have hp := h.active_of_busy (Engine.busy_of_step hstep)
  have ha := (Engine.inv_iff_activeInv hp).1 h
  obtain ⟨i, hs, rfl⟩ | ⟨hs, rfl⟩ | ⟨q, rest, hs, hq, hb, rfl⟩ | ⟨q, rest, hs, hq, hb, rfl⟩ | ⟨hs, hq, hf, rfl⟩ :=
    Engine.step_cases hstep
  · exact (ha.round hs).inv hp
  · exact (ha.feedForward hs).inv hp
  · exact (ha.takeByte hs hq hb).inv hp
  · exact (ha.takeByte_startBlock hq hb).inv hp
  · exact ha.latch hs hq hf

/-! ### Every step, and every run -/

/-- Settles O46: each move of a step keeps the invariant. -/
theorem stepKeepsTheInvariant : Obligations.StepKeepsTheInvariant := by
  unfold Obligations.StepKeepsTheInvariant
  intro s t hinv hstep
  cases step_engineChange hstep with
  | record h => exact h.inv hinv
  | init rest ts hp hm hb h => exact h ▸ (hinv.recordOk.startContext hb).inv rfl
  | command i hi hacc h => exact h ▸ hinv.execute hacc
  | microStep h => exact hinv.microStep h
  | reset ts hts h => exact h ▸ resetMeetsTheInvariant

/-- A run of `n + 1` steps that stops at no fault or refusal is one step and a run of `n`. -/
theorem run_succ_next {M : Host.Core} {n : Nat} {s t : M.State} (h : M.run (n + 1) s = .next t) :
    ∃ s', M.step s = .next s' ∧ M.run n s' = .next t := by
  unfold Host.Core.run at h
  split at h
  · next s' hnext => exact ⟨s', hnext, h⟩
  · cases h
  · cases h

/-- What every step keeps, a run keeps. -/
theorem run_keeps {P : State → Prop} (hstep : ∀ s t, P s → step s = .next t → P t) (n : Nat) {s t : State} (hs : P s)
    (hrun : Sys2Proof.core.run n s = .next t) : P t := by
  induction n generalizing s with
  | zero => cases hrun; exact hs
  | succ n ih =>
    obtain ⟨s', hnext, hrest⟩ := run_succ_next hrun
    exact ih (hstep s s' hs hnext) hrest

/-- Settles O47: the invariant holds at reset, whatever the host will do, and every step keeps it. -/
theorem reachableStatesMeetR45 : Obligations.ReachableStatesMeetR45 := by
  unfold Obligations.ReachableStatesMeetR45
  intro pending turns n t hrun
  have hreset : ({ State.reset with pending := pending, turns := turns } : State).eng.Inv := resetMeetsTheInvariant
  have hinv : t.eng.Inv := run_keeps (P := fun s => s.eng.Inv) stepKeepsTheInvariant n hreset hrun
  exact hinv.1

end Sys2Proof.Machine
end

section
/-! Accesses of the register window (R51-R55, R60), and the pins that ask for them (R69, R260). -/

namespace Sys2Proof.Machine

/-! ### The accesses that have no step (R52, R60) -/

section refused
variable {off width : Nat} (act : Reg → Host.Outcome State Fault Refusal)

theorem access_of_undefined (hw : off < 64) (h : width ≠ 4 ∨ off % 4 ≠ 0) :
    access off width act = .refused .undefinedAccess := by
  have hin : inWindow off = true := decide_eq_true hw
  have hal : ¬ aligned off width = true := by simp [aligned]; omega
  rw [access, if_pos hin, if_neg hal]

theorem access_of_outside (h : 64 ≤ off) : access off width act = .refused .outsideWindow := by
  have hout : ¬ inWindow off = true := by simp [inWindow, h]
  rw [access, if_neg hout]

end refused

/-- The host's read or write is an access of the window at its offset and width. -/
theorem step_eq_access {s : State} {off width : Nat} {dst : Option VarName} {rest : List HostOp} {ts : List Turn}
    (hp : s.pending = .read off width dst :: rest ∨ ∃ v, s.pending = .write off width v :: rest)
    (hm : s.hostMoves ts) : ∃ act, step s = access off width act := by
  rw [step_of_hostMoves hm]
  obtain hp | ⟨v, hp⟩ := hp
  · exact ⟨fun r => .next (readOp off dst r (s.popped rest ts)), by simp only [hostTurn, hp, State.popped]⟩
  · exact ⟨fun r => writeReg r v (s.popped rest ts), by simp only [hostTurn, hp, State.popped]⟩

/-- Settles O40: both kinds of access go through `access`, which refuses them whatever they would do. -/
theorem undefinedAccessesAreRefused : Obligations.UndefinedAccessesAreRefused := by
  unfold Obligations.UndefinedAccessesAreRefused
  intro s off width dst rest ts hp hm
  obtain ⟨act, hstep⟩ := step_eq_access hp hm
  rw [hstep]
  exact ⟨access_of_undefined act, access_of_outside act⟩

/-! ### The step in which the host writes (R55) -/

/-- The host's 32-bit write at an aligned offset of the window is the write of the register that stands there. -/
theorem step_write {s : State} {off : Nat} {v : Word} {rest : List HostOp} {ts : List Turn}
    (hp : s.pending = .write off 4 v :: rest) (hm : s.hostMoves ts) (ha : off % 4 = 0) (hw : off < 64) :
    step s = writeReg (regOf off) v (s.popped rest ts) := by
  have hwf : (aligned off 4 && inWindow off) = true := by simp [aligned, inWindow, ha, hw]
  simp only [step_of_hostMoves hm, hostTurn, hp, access_of_wf hwf, State.popped]

/-- Settles O39: only CMD, at 0x00, and ERRINFO, at 0x08, do anything with a write. -/
theorem otherWritesHaveNoEffect : Obligations.OtherWritesHaveNoEffect := by
  unfold Obligations.OtherWritesHaveNoEffect
  intro s off v rest ts hp hm ha hw hcmd herr
  have hoff := offset_regOf ha hw
  rw [step_write hp hm ha hw]
  obtain ⟨hr, -⟩ | ⟨hr, -⟩ | ⟨-, -, hnext⟩ := writeReg_cases (regOf off) v (s.popped rest ts)
  · rw [hr] at hoff; exact absurd hoff.symm hcmd
  · rw [hr] at hoff; exact absurd hoff.symm herr
  · exact hnext

/-! ### The addresses of the window (R51) -/

theorem windowOffset_eq_some_iff {base addr off : Nat} :
    windowOffset base addr = some off ↔ addr = base + off ∧ off < 64 := by
  simp only [windowOffset, Option.ite_none_right_eq_some, Option.some.injEq]
  omega

/-- A base that is a multiple of 64 leaves bits [5:2] of an address to the offset. -/
theorem addressSelect_base_add {base : Nat} (hb : Config.baseWf base) (off : Nat) :
    addressSelect (BitVec.ofNat 32 (base + off)) = BitVec.ofNat 4 (off / 4) := by
  have hb : base % 64 = 0 := hb
  apply BitVec.eq_of_toNat_eq
  simp only [addressSelect, BitVec.extractLsb'_toNat, BitVec.toNat_ofNat, Nat.shiftRight_eq_div_pow]
  omega

/-- Settles O42: an address is its base and its offset, and R35's table is the list of the registers. -/
theorem windowDecoding : Obligations.WindowDecoding := by
  unfold Obligations.WindowDecoding
  refine ⟨fun base addr hb => ⟨fun off => windowOffset_eq_some_iff, fun off h => ?_⟩, fun r => ?_, by decide⟩
  · obtain ⟨rfl, -⟩ := windowOffset_eq_some_iff.1 h
    have hsel := addressSelect_base_add hb off
    exact ⟨hsel, by rw [hsel, regOf]⟩
  · exact ⟨regOf_offset r, by cases r <;> decide⟩

/-! ### What the pins ask for (R69) -/

/-- The register that `bus_addr` selects stands at offset 4 * bus_addr. -/
theorem offset_regAt (sel : BitVec 4) : (regAt sel).offset = 4 * sel.toNat := by
  revert sel
  decide

section busOp
variable {p : BusPins}

theorem busOp_of_write (hsel : p.sel = true) (hwe : p.we = true) :
    busOp p = some (.write (4 * p.addr.toNat) 4 p.wdata) := by
  simp [busOp, hsel, hwe]

theorem busOp_of_read (hsel : p.sel = true) (hwe : p.we = false) :
    busOp p = some (.read (4 * p.addr.toNat) 4 none) := by
  simp [busOp, hsel, hwe]

theorem busOp_of_not_sel (hsel : p.sel = false) : busOp p = none := by
  simp [busOp, hsel]

/-- What the pins ask for is a read or a write, and they ask only with `bus_sel` = 1. -/
theorem busOp_cases {op : HostOp} (h : busOp p = some op) :
    p.sel = true ∧
      ((p.we = true ∧ op = .write (4 * p.addr.toNat) 4 p.wdata) ∨
       (p.we = false ∧ op = .read (4 * p.addr.toNat) 4 none)) := by
  cases hsel : p.sel with
  | false => rw [busOp_of_not_sel hsel] at h; cases h
  | true =>
    refine ⟨rfl, ?_⟩
    cases hwe : p.we with
    | true => rw [busOp_of_write hsel hwe] at h; cases h; exact .inl ⟨rfl, rfl⟩
    | false => rw [busOp_of_read hsel hwe] at h; cases h; exact .inr ⟨rfl, rfl⟩

theorem busOp_isSome : (busOp p).isSome = p.sel := by
  cases hsel : p.sel <;> simp [busOp, hsel]

/-- The pins can ask only for an access that the engine defines. -/
theorem busOp_wf {op : HostOp} (h : busOp p = some op) : op.wf = true := by
  have hacc : (aligned (4 * p.addr.toNat) 4 && inWindow (4 * p.addr.toNat)) = true := by
    simp [aligned, inWindow]; omega
  obtain ⟨-, ⟨-, rfl⟩ | ⟨-, rfl⟩⟩ := busOp_cases h
  · exact hacc
  · exact hacc

end busOp

/-! ### What the pins make the machine do (R69, R260) -/

section drive
variable {cfg : Config.Signals} {past : List Pins} {now : Pins} {s : State}

/-- An access is performed exactly when no reset is in force and the handshake completes one that is asked for. -/
theorem accessAt_eq_some_iff {op : HostOp} :
    accessAt cfg past now = some op ↔
      resetInForce cfg.reset (now :: past) = false ∧ cfg.bus.completes (now :: past) = true ∧
        busOp now.bus = some op := by
  simp [accessAt]

theorem accessAt_eq_none (h : cfg.bus.completes (now :: past) = false ∨ now.bus.sel = false) :
    accessAt cfg past now = none := by
  rw [Option.eq_none_iff_forall_ne_some]
  intro op hop
  obtain ⟨-, hdone, hask⟩ := accessAt_eq_some_iff.1 hop
  obtain ⟨hsel, -⟩ := busOp_cases hask
  obtain h | h := h
  · exact absurd hdone (by simp [h])
  · exact absurd hsel (by simp [h])

theorem accessAt_eq_none_of_reset (h : resetInForce cfg.reset (now :: past) = true) :
    accessAt cfg past now = none := by
  simp [accessAt, h]

theorem step_drive_of_reset (h : resetInForce cfg.reset (now :: past) = true) :
    step (s.drive cfg past now) = .next (resetEvent s) := by
  simp [State.drive, h, step]

theorem drive_of_access {op : HostOp} (h : accessAt cfg past now = some op) :
    s.drive cfg past now = { s with pending := op :: s.pending, turns := .host :: s.turns } := by
  obtain ⟨hrst, -, -⟩ := accessAt_eq_some_iff.1 h
  simp [State.drive, hrst, h]

theorem drive_of_no_access (hrst : resetInForce cfg.reset (now :: past) = false)
    (h : accessAt cfg past now = none) : s.drive cfg past now = s := by
  simp [State.drive, hrst, h]

/-- `bus_rdata` has a value only when a read is performed, and then that of the register read. -/
theorem busRdata_eq_some {v : Word} (h : busRdata cfg past now s = some v) :
    accessAt cfg past now = some (.read (regAt now.bus.addr).offset 4 none) ∧
      v = s.eng.readValue s.draws (regAt now.bus.addr) := by
  simp only [busRdata, Option.ite_none_right_eq_some, Bool.and_eq_true, Option.isSome_iff_exists,
    Bool.not_eq_true', Option.some.injEq, readReg_value] at h
  obtain ⟨⟨⟨op, hop⟩, hwe⟩, rfl⟩ := h
  obtain ⟨-, -, hask⟩ := accessAt_eq_some_iff.1 hop
  obtain ⟨-, ⟨hwe', -⟩ | ⟨-, rfl⟩⟩ := busOp_cases hask
  · exact absurd hwe' (by simp [hwe])
  · exact ⟨by rw [hop, offset_regAt], rfl⟩

theorem busRdata_eq_none_of_reset (h : resetInForce cfg.reset (now :: past) = true) :
    busRdata cfg past now s = none := by
  simp [busRdata, accessAt_eq_none_of_reset h]

/-- A read performed at the pins is the host's read, and returns what `bus_rdata` shows. -/
theorem step_drive_read {v : Word} (h : busRdata cfg past now s = some v) :
    ∃ t : State, step (s.drive cfg past now) = .next t ∧ t.eng = s.eng ∧ t.pending = s.pending ∧
      t.reads = s.reads ++ [⟨4 * now.bus.addr.toNat, v⟩] := by
  obtain ⟨hacc, rfl⟩ := busRdata_eq_some h
  rw [drive_of_access hacc, ← offset_regAt]
  obtain ⟨t, hstep, heng, hpending, -, hreads, -⟩ :=
    step_read (s := { s with pending := _ :: s.pending, turns := .host :: s.turns }) rfl (.inl rfl)
  exact ⟨t, hstep, heng, hpending, hreads⟩

theorem busReady_eq_true_iff :
    busReady cfg past now = some true ↔
      resetInForce cfg.reset (now :: past) = false ∧ cfg.bus.completes (now :: past) = true ∧
        now.bus.sel = true := by
  simp only [busReady, Option.ite_none_right_eq_some, Option.some.injEq, ← busOp_isSome,
    Option.isSome_iff_exists, accessAt_eq_some_iff]
  tauto

end drive

/-- Settles O43: reset, then a completed access, then nothing, in the order of `State.drive`. -/
theorem pinsDriveTheMachine : Obligations.PinsDriveTheMachine := by
  unfold Obligations.PinsDriveTheMachine
  intro cfg past now s inForce completes
  have hforce : resetInForce cfg.reset (now :: past) = inForce := rfl
  rw [← hforce]
  refine ⟨busOp_of_write, busOp_of_read, busOp_of_not_sel, fun op => busOp_wf,
    fun hrst => ⟨step_drive_of_reset hrst, busRdata_eq_none_of_reset hrst⟩, fun op hrst hdone hask => ?_,
    fun hrst hno => drive_of_no_access hrst (accessAt_eq_none hno), fun v => step_drive_read, busReady_eq_true_iff⟩
  rw [drive_of_access (accessAt_eq_some_iff.2 ⟨hrst, hdone, hask⟩)]
  exact step_of_hostMoves (.inl rfl)

end Sys2Proof.Machine
end

section
/-! Command words (R81-R90): which words a command is, which are rejected and what submitting one does; the host's turn
at a WAIT; and the accesses that the assembler makes of a program. -/

namespace Sys2Proof.Machine

/-! ### The word of a command (R82, R83, R89) -/

/-- FEEDCU's word has the code unit for its upper half, and the opcode 2 for its lower half. -/
theorem encode_feedcu_eq_iff_toNat {u : CodeUnit} {w : Word} :
    encode (.feedcu u) = w ↔ w.toNat % 65536 = 2 ∧ u = opndField w := by
  rw [BitVec.toNat_eq, encode_feedcu_toNat, BitVec.toNat_eq, opndField_toNat]
  omega

/-- FEEDB's word has the byte for its bits [23:16], and the opcode 3 for the rest. -/
theorem encode_feedb_eq_iff_toNat {b : Byte} {w : Word} :
    encode (.feedb b) = w ↔ w.toNat % 65536 = 3 ∧ w.toNat / 16777216 = 0 ∧ b = byteField w := by
  have hb := b.isLt
  rw [BitVec.toNat_eq, encode_feedb_toNat, BitVec.toNat_eq, byteField_toNat]
  omega

/-- Each command has one word: the one it encodes to. -/
theorem decode_eq_command_iff {w : Word} {i : Instr} : decode w = .command i ↔ encode i = w := by
  rw [decode_eq_toNat]
  cases i with
  | nop | init | final => rw [BitVec.toNat_eq]; split_ifs <;> simp [encode] <;> omega
  | feedcu u =>
    rw [encode_feedcu_eq_iff_toNat]
    constructor
    · intro h
      split_ifs at h <;> cases h
      exact ⟨by omega, rfl⟩
    · rintro ⟨hw, rfl⟩
      simp [show w.toNat % 256 = 2 by omega, show w.toNat / 256 % 256 = 0 by omega]
  | feedb b =>
    rw [encode_feedb_eq_iff_toNat]
    constructor
    · intro h
      split_ifs at h <;> cases h
      exact ⟨by omega, by omega, rfl⟩
    · rintro ⟨hw, htop, rfl⟩
      simp [show w.toNat % 256 = 3 by omega, show w.toNat / 256 % 256 = 0 by omega, htop]

/-- Settles O1: the word a command encodes to is a word of that command. -/
theorem decodeOfEncode : Obligations.DecodeOfEncode := by
  unfold Obligations.DecodeOfEncode
  intro i
  exact decode_eq_command_iff.2 rfl

/-- Settles O2: it is the command's only word. -/
theorem encodeOfDecode : Obligations.EncodeOfDecode := by
  unfold Obligations.EncodeOfDecode
  intro w i
  exact decode_eq_command_iff.1

/-! ### The rows of the table (R83) -/

/-- A masked word, byte by byte. -/
theorem and_eq_iff_fields {w m v : Word} :
    w &&& m = v ↔ opField w &&& opField m = opField v ∧ rsvField w &&& rsvField m = rsvField v ∧
      byteField w &&& byteField m = byteField v ∧ topField w &&& topField m = topField v := by
  constructor
  · rintro rfl
    simp [opField, rsvField, byteField, topField, BitVec.extractLsb'_and]
  · rintro ⟨hop, hrsv, hbyte, htop⟩
    refine word_ext fun k hk => ?_
    have hand : byteOf (w &&& m) k = byteOf w k &&& byteOf m k := BitVec.extractLsb'_and
    rw [hand]
    match k, hk with
    | 0, _ => exact hop
    | 1, _ => exact hrsv
    | 2, _ => exact hbyte
    | 3, _ => exact htop

/-- A byte of ones in a mask keeps the byte under it. -/
theorem byte_and_ff (b : Byte) : b &&& 255#8 = b := BitVec.and_allOnes

/-- FEEDCU's mask leaves the lower half of the word. -/
theorem feedcu_row_iff_toNat {w : Word} : w &&& 0x0000FFFF#32 = 0x00000002#32 ↔ w.toNat % 65536 = 2 := by
  have hfields : w &&& 0x0000FFFF#32 = 0x00000002#32 ↔ opField w = 2#8 ∧ rsvField w = 0#8 := by
    rw [and_eq_iff_fields]
    simp [byteField, topField, opField, rsvField, byte_and_ff]
  rw [hfields, BitVec.toNat_eq, BitVec.toNat_eq, opField_toNat, rsvField_toNat]
  simp only [BitVec.toNat_ofNat]
  omega

/-- FEEDB's mask leaves all but the operand byte. -/
theorem feedb_row_iff_toNat {w : Word} :
    w &&& 0xFF00FFFF#32 = 0x00000003#32 ↔ w.toNat % 65536 = 3 ∧ w.toNat / 16777216 = 0 := by
  have hfields : w &&& 0xFF00FFFF#32 = 0x00000003#32 ↔ opField w = 3#8 ∧ rsvField w = 0#8 ∧ topField w = 0#8 := by
    rw [and_eq_iff_fields]
    simp [byteField, topField, opField, rsvField, byte_and_ff]
  rw [hfields, BitVec.toNat_eq, BitVec.toNat_eq, BitVec.toNat_eq, opField_toNat, rsvField_toNat, topField_toNat]
  simp only [BitVec.toNat_ofNat]
  omega

/-- The full mask leaves the word as it is, so its row is one word. -/
theorem full_row_iff {w v : Word} : w &&& 0xFFFFFFFF#32 = v ↔ v = w := by
  have hw : w &&& 0xFFFFFFFF#32 = w := BitVec.and_allOnes
  rw [hw, eq_comm]

/-- A row's words are its commands' words, and the operand is the field outside the mask. -/
theorem decode_feedcu_iff {w : Word} {u : CodeUnit} :
    decode w = .command (.feedcu u) ↔ w &&& 0x0000FFFF#32 = 0x00000002#32 ∧ u = w.extractLsb' 16 16 := by
  rw [decode_eq_command_iff, encode_feedcu_eq_iff_toNat, feedcu_row_iff_toNat, opndField]

theorem decode_feedb_iff {w : Word} {b : Byte} :
    decode w = .command (.feedb b) ↔ w &&& 0xFF00FFFF#32 = 0x00000003#32 ∧ b = w.extractLsb' 16 8 := by
  rw [decode_eq_command_iff, encode_feedb_eq_iff_toNat, feedb_row_iff_toNat, byteField, and_assoc]

/-- A word of a row decodes to a command of that row. -/
theorem exists_decode_of_inRow {i : Instr} {w : Word} (h : inRow i w = true) :
    ∃ j, decode w = .command j ∧ j.pattern = i.pattern := by
  have hrow : w &&& i.pattern.2 = i.pattern.1 := beq_iff_eq.1 h
  cases i with
  | nop => exact ⟨.nop, decode_eq_command_iff.2 (full_row_iff.1 hrow), rfl⟩
  | init => exact ⟨.init, decode_eq_command_iff.2 (full_row_iff.1 hrow), rfl⟩
  | feedcu u => exact ⟨.feedcu (opndField w), decode_feedcu_iff.2 ⟨hrow, rfl⟩, rfl⟩
  | feedb b => exact ⟨.feedb (byteField w), decode_feedb_iff.2 ⟨hrow, rfl⟩, rfl⟩
  | final => exact ⟨.final, decode_eq_command_iff.2 (full_row_iff.1 hrow), rfl⟩

/-- Settles O3: the rows are disjoint because each is the words of its commands, and a word has one command. -/
theorem wordsOfEachCommand : Obligations.WordsOfEachCommand := by
  unfold Obligations.WordsOfEachCommand
  intro w
  refine ⟨?_, ?_, fun u => decode_feedcu_iff, fun b => decode_feedb_iff, ?_, fun i j hi hj => ?disjoint⟩
  case disjoint =>
    obtain ⟨i', hi', hpi⟩ := exists_decode_of_inRow hi
    obtain ⟨j', hj', hpj⟩ := exists_decode_of_inRow hj
    cases hi'.symm.trans hj'
    rw [← hpi, hpj]
  all_goals rw [decode_eq_command_iff, full_row_iff, encode]

/-! ### The words that are no command (R85, R86) -/

theorem decode_illegalOpcode {w : Word} (h : 5 ≤ (opField w).toNat) : decode w = .reject .illegalOpcode := by
  rw [opField_toNat] at h
  rw [decode_eq_toNat, if_pos (by omega)]

/-- RSV must be zero in every row. -/
theorem decode_reservedBits_of_rsv {w : Word} (hop : (opField w).toNat ≤ 4) (h : rsvField w ≠ 0#8) :
    decode w = .reject .reservedBits := by
  have hrsv : w.toNat / 256 % 256 ≠ 0 := by simpa [BitVec.toNat_eq, rsvField_toNat] using h
  rw [opField_toNat] at hop
  rw [decode_eq_toNat, if_neg (by omega), if_pos hrsv]

/-- FEEDB has no operand bits above its byte. -/
theorem decode_reservedBits_of_top {w : Word} (hop : opField w = 3#8) (h : topField w ≠ 0#8) :
    decode w = .reject .reservedBits := by
  by_cases hrsv : rsvField w = 0#8
  · simp [decode, hop, hrsv, h]
  · exact decode_reservedBits_of_rsv (by simp [hop]) hrsv

theorem upper_eq_zero {w : Word} (hrsv : rsvField w = 0#8) (hopnd : opndField w = 0#16) :
    w.extractLsb' 8 24 = 0#24 := by
  have hrsv : w.toNat / 256 % 256 = 0 := by rw [← rsvField_toNat, hrsv]; rfl
  have hopnd : w.toNat / 65536 = 0 := by rw [← opndField_toNat, hopnd]; rfl
  apply BitVec.eq_of_toNat_eq
  simp only [BitVec.extractLsb'_toNat, Nat.shiftRight_eq_div_pow, BitVec.toNat_ofNat]
  omega

/-- NOP, INIT and FINAL have no operand, so every bit above the opcode must be zero. -/
theorem decode_reservedBits_of_upper {w : Word} (hop : opField w = 0#8 ∨ opField w = 1#8 ∨ opField w = 4#8)
    (h : w.extractLsb' 8 24 ≠ 0#24) : decode w = .reject .reservedBits := by
  by_cases hrsv : rsvField w = 0#8
  · have hopnd : opndField w ≠ 0#16 := fun h0 => h (upper_eq_zero hrsv h0)
    obtain hop | hop | hop := hop <;> simp [decode, hop, hrsv, hopnd]
  · have hassigned : (opField w).toNat ≤ 4 := by obtain hop | hop | hop := hop <;> simp [hop]
    exact decode_reservedBits_of_rsv hassigned hrsv

/-! ### Submitting a word (R100) -/

theorem submit_of_command {w : Word} {i : Instr} (h : decode w = .command i) (s : State) : submit w s = exec i s := by
  simp only [submit, h]

theorem submit_of_reject {w : Word} {c : InvalidArgument} (h : decode w = .reject c) (s : State) :
    submit w s = .next (s.rejected (if s.eng.busy then .busy else c) w) := by
  simp only [submit, h, rejectWord, State.rejected]

/-- Settles O4: the decoder names the code, whatever the state is, and submitting replaces it while BUSY = 1. -/
theorem illegalAndReservedWordsRejected : Obligations.IllegalAndReservedWordsRejected := by
  unfold Obligations.IllegalAndReservedWordsRejected
  intro w s rejectedWith
  refine ⟨fun hop => submit_of_reject (decode_illegalOpcode hop) s,
    fun hop h => submit_of_reject (decode_reservedBits_of_upper hop h) s, fun hop h => ?_, fun hop h => ?_⟩
  · change opField w = 2#8 at hop
    exact submit_of_reject (decode_reservedBits_of_rsv (by simp [hop]) h) s
  · change opField w = 3#8 at hop
    obtain hrsv | htop := h
    · exact submit_of_reject (decode_reservedBits_of_rsv (by simp [hop]) hrsv) s
    · exact submit_of_reject (decode_reservedBits_of_top hop htop) s

/-- Settles O5: the nine words are closed, and the decoder computes. -/
theorem decodesWrittenWords : Obligations.DecodesWrittenWords := by
  unfold Obligations.DecodesWrittenWords
  decide

/-- Settles O6: offset 0 is CMD, and a write of CMD submits the word. -/
theorem stepRunsTheDecodedCommand : Obligations.StepRunsTheDecodedCommand := by
  unfold Obligations.StepRunsTheDecodedCommand
  intro s w rest ts hp hm
  have hstep : step s = submit w (s.popped rest ts) := step_write hp hm (by decide) (by decide)
  rw [hstep]
  exact ⟨fun i hd => submit_of_command hd _, fun c hd => submit_of_reject hd _⟩

/-! ### The host's turn at a WAIT (R90) -/

theorem step_wait {s : State} {rest : List HostOp} {ts : List Turn} (hp : s.pending = .wait :: rest)
    (hm : s.hostMoves ts) : step s = .next (pollOp rest { s with turns := ts }) := by
  simp only [step_of_hostMoves hm, hostTurn, hp]

/-- Settles O41: the value assigned is that of STATUS, whose bit 0 decides whether the host stays. -/
theorem waitEndsWhenNotBusy : Obligations.WaitEndsWhenNotBusy := by
  unfold Obligations.WaitEndsWhenNotBusy
  intro s rest ts hp hm
  refine ⟨_, s.eng.readValue s.draws .status, step_wait hp hm, pollOp_eng .., pollOp_turns .., pollOp_reads ..,
    readValue_status_bit0 .., fun x => ?_, fun hb => ?_, fun hb => ?_⟩
  · rw [pollOp_vars, varValue_assign, pollVar]
    simp [eq_comm]
  · rw [pollOp_pending, if_pos hb]
  · rw [pollOp_pending, if_neg (by simp [hb])]

/-! ### Assembled programs (R89, R90) -/

theorem assemble_eq_none_iff {p : Asm} : assemble p = none ↔ p.wf = false := by
  simp [assemble]

theorem assemble_of_wf {p : Asm} (h : p.wf = true) : assemble p = some (Asm.expand p) := by
  rw [assemble, if_pos h]

/-- What is assembled is a well-formed program's expansion. -/
theorem assemble_eq_some_iff {p : Asm} {ops : List HostOp} :
    assemble p = some ops ↔ p.wf = true ∧ Asm.expand p = ops := by
  simp [assemble]

@[simp] theorem read_wf (off width : Nat) (dst : Option VarName) :
    (HostOp.read off width dst).wf = (aligned off width && inWindow off) := rfl

@[simp] theorem write_wf (off width : Nat) (v : Word) :
    (HostOp.write off width v).wf = (aligned off width && inWindow off) := rfl

@[simp] theorem wait_wf : HostOp.wait.wf = true := rfl

@[simp] theorem command_wf (i : Instr) : (command i).wf = true := rfl

/-- FEEDSTR and FEEDBYTES feed a list one command at a time, each with a WAIT after it. -/
theorem wf_of_mem_commands_and_waits {α : Type} (f : α → Instr) (as : List α) :
    ∀ op ∈ as.flatMap (fun a => [command (f a), .wait]), op.wf = true := by
  intro op hop
  obtain ⟨a, -, hop⟩ := List.mem_flatMap.1 hop
  obtain rfl | rfl : op = command (f a) ∨ op = .wait := by simpa using hop
  · exact command_wf (f a)
  · exact wait_wf

theorem feedUnits_wf (us : List CodeUnit) : ∀ op ∈ feedUnits us, op.wf = true :=
  wf_of_mem_commands_and_waits Instr.feedcu us

theorem readDigestOps_wf (d : Option DigestVars) : ∀ op ∈ readDigestOps d, op.wf = true := by
  simp [readDigestOps, aligned, inWindow, Reg.offset]

/-- A well-formed program expands to accesses that the engine defines. -/
theorem expand_wf {p : Asm} (h : p.wf = true) : ∀ op ∈ Asm.expand p, op.wf = true := by
  induction p with
  | skip => simp [Asm.expand]
  | seq p q ihp ihq =>
    obtain ⟨hp, hq⟩ : p.wf = true ∧ q.wf = true := by simpa [Asm.wf] using h
    exact List.forall_mem_append.2 ⟨ihp hp, ihq hq⟩
  | rep n body ih =>
    intro op hop
    obtain ⟨-, hbody⟩ : n ≠ 0 ∧ op ∈ Asm.expand body := by simpa [Asm.expand] using hop
    exact ih h op hbody
  | nop | init | feedcu u | feedb b | final | wait => simp [Asm.expand]
  | cmd w | clrerr => simp [Asm.expand, aligned, inWindow, Reg.offset]
  | wr off v | rd off name => simp_all [Asm.wf, Asm.expand]
  | feedstr text => exact feedUnits_wf _
  | feedbytes bs => exact wf_of_mem_commands_and_waits (fun b => .feedb (BitVec.ofNat 8 b)) bs
  | readdigest d => exact readDigestOps_wf _
  | digest text d =>
    simp only [Asm.expand, List.forall_mem_append]
    exact ⟨⟨⟨by simp, feedUnits_wf _⟩, by simp⟩, readDigestOps_wf _⟩

/-- DIGEST is a shorthand: it expands to what the sequence of R90 expands to. -/
theorem expand_digest (text : List Char) (d : DigestVars) :
    Asm.expand (.digest text d) =
      Asm.expand (.seq .init (.seq (.feedstr text) (.seq .final (.seq .wait (.readdigest d))))) := by
  simp [Asm.expand]

/-- Settles O59: assembling checks the operands and then expands, and the expansion is what R90 writes. -/
theorem assembledAccessesAreDefined : Obligations.AssembledAccessesAreDefined := by
  unfold Obligations.AssembledAccessesAreDefined
  refine ⟨fun p => assemble_eq_none_iff, fun p ops h => ?_, fun u => ?_, fun b => ?_, fun off x ops h => ?_,
    fun d => assemble_of_wf rfl, fun text d => ?_⟩
  · obtain ⟨hwf, rfl⟩ := assemble_eq_some_iff.1 h
    exact expand_wf hwf
  · rw [assemble_eq_none_iff, Asm.wf, decide_eq_false_iff_not, Nat.not_le]
  · rw [assemble_eq_none_iff, Asm.wf, decide_eq_false_iff_not, Nat.not_le]
  · exact (assemble_eq_some_iff.1 h).2.symm
  · rw [assemble_of_wf rfl, assemble_of_wf rfl, expand_digest]

end Sys2Proof.Machine
end

section
/-! The commands (R100-R106): what a submitted word and a command make of the state, accepted or rejected, and what the
write of ERRINFO does. -/

namespace Sys2Proof.Machine

/-! ### Submitting a word (R100, R231) -/

/-- The check of a word that is a command is the check on the state. -/
theorem check_of_command {w : Word} {i : Instr} (h : decode w = .command i) (e : Engine) :
    check e w = (rejection i e).elim (.command i) .reject := by
  simp only [check, rejection, h, Bool.and_eq_true, decide_eq_true_eq]
  split_ifs <;> rfl

/-- Where the word is a command, `Submit` is that check and then the command's pseudocode. -/
theorem Engine.submit_of_command {w : Word} {i : Instr} (h : decode w = .command i) (e : Engine) :
    e.submit w = e.issue i (Engine.execute i) := by
  obtain rfl := decode_eq_command_iff.1 h
  rw [Engine.submit, Engine.issue, check_of_command h]
  cases rejection i e <;> rfl

/-- Where it is none, BUSY comes before the decoder's code. -/
theorem Engine.submit_of_reject {w : Word} {c : InvalidArgument} (h : decode w = .reject c) (e : Engine) :
    e.submit w = e.recordError (if e.busy then .busy else c) w := by
  unfold Engine.submit check
  cases hb : e.busy <;> simp [h]

/-- Settles O7: `decode`, `exec` and `issue` together check and act as R100 writes it, for a command and for any other
word. -/
theorem submitIsCheckThenExecute : Obligations.SubmitIsCheckThenExecute := by
  unfold Obligations.SubmitIsCheckThenExecute
  intro w s
  cases h : decode w with
  | command i => rw [submit_of_command h, exec_eq, Engine.submit_of_command h]
  | reject c => rw [submit_of_reject h, Engine.submit_of_reject h, State.rejected]

/-- Settles O11: offset 0x08 is ERRINFO, and bit 0 of the word decides. -/
theorem errinfoWriteClears : Obligations.ErrinfoWriteClears := by
  unfold Obligations.ErrinfoWriteClears
  intro s v rest ts hp hm
  have hstep : step s = .next { s.popped rest ts with eng := s.eng.writeErrinfo v } :=
    step_write hp hm (by decide) (by decide)
  rw [hstep, Engine.writeErrinfo]
  constructor
  · intro hv; rw [if_pos hv]; rfl
  · intro hv; rw [if_neg (ne_true_of_eq_false hv)]; rfl

/-! ### A command, accepted or rejected (R100, R231) -/

section exec
variable {i : Instr} {s : State}

theorem exec_of_accepted (h : rejection i s.eng = none) : exec i s = .next { s with eng := s.eng.execute i } := by
  simp only [exec_eq, Engine.issue, h]

theorem exec_of_rejected {c : InvalidArgument} (h : rejection i s.eng = some c) :
    exec i s = .next (s.rejected c (encode i)) := by
  simp only [exec_eq, Engine.issue, h, State.rejected]

theorem exec_of_busy (h : s.eng.busy = true) : exec i s = .next (s.rejected .busy (encode i)) :=
  exec_of_rejected (rejection_of_busy h i)

theorem exec_of_not_active (hn : needsActive i = true) (hb : s.eng.busy = false) (hp : s.eng.phase ≠ .active) :
    exec i s = .next (s.rejected .phase (encode i)) :=
  exec_of_rejected (rejection_of_phase hb hn hp)

/-- A word that is no command, submitted to an engine at rest, is rejected with the decoder's code. -/
theorem submit_of_reject_at_rest {w : Word} {c : InvalidArgument} (h : decode w = .reject c)
    (hb : s.eng.busy = false) : submit w s = .next (s.rejected c w) := by
  rw [submit_of_reject h, if_neg (ne_true_of_eq_false hb)]

end exec

/-! ### The five commands (R101-R105) -/

/-- Settles O13: NOP needs no phase, and its pseudocode is `skip`. -/
theorem nopDoesNothing : Obligations.NopDoesNothing := by
  unfold Obligations.NopDoesNothing
  refine ⟨rfl, fun s => ⟨fun hb => ?_, exec_of_busy, fun w hb hop hrsv => ?_⟩⟩
  · exact exec_of_accepted (rejection_of_any_phase hb rfl)
  · exact submit_of_reject_at_rest (decode_reservedBits_of_upper (.inl hop) hrsv) hb

/-- Settles O14: INIT needs no phase; what it leaves alone is at rest already. -/
theorem initStartsAContext : Obligations.InitStartsAContext := by
  unfold Obligations.InitStartsAContext
  refine ⟨rfl, fun s => ⟨fun hb => ?_, exec_of_busy, fun w hb hop hrsv => ?_⟩⟩
  · obtain ⟨hs, hq, hf⟩ := (Engine.busy_eq_false_iff s.eng).1 hb
    exact ⟨exec_of_accepted (rejection_of_any_phase hb rfl), hq, hs, hf⟩
  · exact submit_of_reject_at_rest (decode_reservedBits_of_upper (.inr (.inl hop)) hrsv) hb

/-- An engine at rest has an empty queue, so what is queued is the whole of it. -/
theorem Engine.enqueue_of_not_busy {e : Engine} (h : e.busy = false) (qs : List QEntry) :
    e.enqueue qs = { e with queue := qs } := by
  obtain ⟨-, hq, -⟩ := (Engine.busy_eq_false_iff e).1 h
  rw [Engine.enqueue, hq, List.nil_append]

/-- Settles O15: the code unit has at least one byte, so the queue it leaves is not empty. -/
theorem feedcuQueuesItsBytes : Obligations.FeedcuQueuesItsBytes := by
  unfold Obligations.FeedcuQueuesItsBytes
  intro u s
  refine ⟨rfl, fun hb hp => ⟨_, exec_of_accepted (rejection_of_active hb hp _), ?_, ?_⟩, exec_of_busy,
    exec_of_not_active rfl, fun w hb hop hrsv => ?_⟩
  · rw [Engine.execute, Engine.enqueue_of_not_busy hb, countedEntries]
  · have hne : countedEntries (utf8Bytes u) ≠ [] := by
      simpa [countedEntries] using List.ne_nil_of_length_pos (utf8Bytes_length u).1
    exact (Engine.busy_eq_true_iff _).2 (.inr (.inl (List.append_ne_nil_of_right_ne_nil _ hne)))
  · change opField w = 2#8 at hop
    exact submit_of_reject_at_rest (decode_reservedBits_of_rsv (by simp [hop]) hrsv) hb

/-- Settles O16: the queue it leaves is the one byte. -/
theorem feedbQueuesItsByte : Obligations.FeedbQueuesItsByte := by
  unfold Obligations.FeedbQueuesItsByte
  intro b s
  refine ⟨rfl, fun hb hp => ⟨_, exec_of_accepted (rejection_of_active hb hp _), ?_, ?_⟩, exec_of_busy,
    exec_of_not_active rfl, fun w hb hop hrsv => ?_⟩
  · rw [Engine.execute, Engine.enqueue_of_not_busy hb, countedEntries, List.map_singleton]
  · exact (Engine.busy_eq_true_iff _).2 (.inr (.inl (List.append_ne_nil_of_right_ne_nil _ (List.cons_ne_nil _ _))))
  · change opField w = 3#8 at hop
    obtain htop | hrsv := hrsv
    · exact submit_of_reject_at_rest (decode_reservedBits_of_top hop htop) hb
    · exact submit_of_reject_at_rest (decode_reservedBits_of_rsv (by simp [hop]) hrsv) hb

/-- Settles O17: FINAL queues the padding of the bcnt and LEN it finds, and `fin` alone makes BUSY 1. -/
theorem finalQueuesThePadding : Obligations.FinalQueuesThePadding := by
  unfold Obligations.FinalQueuesThePadding
  refine ⟨rfl, fun s => ⟨fun hb hp => ⟨_, exec_of_accepted (rejection_of_active hb hp _), ?_, ?_⟩, exec_of_busy,
    exec_of_not_active rfl, fun w hb hop hrsv => ?_⟩⟩
  · rw [Engine.execute, Engine.finish, Engine.enqueue_of_not_busy hb]; rfl
  · exact (Engine.busy_eq_true_iff _).2 (.inr (.inr rfl))
  · exact submit_of_reject_at_rest (decode_reservedBits_of_upper (.inr (.inr hop)) hrsv) hb

end Sys2Proof.Machine
end

section
/-! Coming to rest (R192, R193): every micro-step takes one from the count `remaining`, so the engine that has taken
them all is at rest, and where an engine comes to rest does not depend on how many of them it has taken already. Then
what the 65 micro-steps of a block do together (R177-R180). -/

namespace Sys2Proof.Machine

/-! ### The count of micro-steps left (R193) -/

theorem Engine.blocksLeft_of_sidle {e : Engine} (h : e.seq = .sidle) :
    e.blocksLeft = (e.bcnt + e.queue.length) / 64 := by
  simp only [Engine.blocksLeft, h]

theorem Engine.blocksLeft_of_not_sidle {e : Engine} (h : e.seq ≠ .sidle) : e.blocksLeft = e.queue.length / 64 := by
  cases hs : e.seq with
  | sidle => exact absurd hs h
  | round i => simp only [Engine.blocksLeft, hs]
  | ff => simp only [Engine.blocksLeft, hs]

theorem Seq.left_nextSeq (i : Fin 64) : (nextSeq i).left + 1 = (Seq.round i).left ∧ nextSeq i ≠ .sidle := by
  obtain ⟨j, hj, h⟩ | ⟨rfl, h⟩ := nextSeq_cases i
  · rw [h]; simp only [Seq.left]; exact ⟨by omega, nofun⟩
  · rw [h]; exact ⟨rfl, nofun⟩

/-- Each micro-step is one of those that were left. -/
theorem Engine.remaining_of_step {e e' : Engine} (h : e.step = some e') : e.remaining = e'.remaining + 1 := by
  obtain ⟨i, hs, rfl⟩ | ⟨hs, rfl⟩ | ⟨q, rest, hs, hq, -, rfl⟩ | ⟨q, rest, hs, hq, hb, rfl⟩ | ⟨hs, hq, hf, rfl⟩ :=
    Engine.step_cases h <;> unfold Engine.remaining
  · obtain ⟨hleft, hnext⟩ := Seq.left_nextSeq i
    rw [Engine.blocksLeft_of_not_sidle (e := e) (by simp [hs]), Engine.blocksLeft_of_not_sidle hnext, hs, ← hleft]
    simp only [Engine.round_seq, Engine.round_queue, Engine.round_fin]
    omega
  · rw [Engine.blocksLeft_of_not_sidle (e := e) (by simp [hs]), Engine.blocksLeft_of_sidle rfl, hs]
    simp only [Engine.feedForward_seq, Engine.feedForward_queue, Engine.feedForward_fin, Engine.feedForward_bcnt,
      Seq.left]
    omega
  · rw [Engine.blocksLeft_of_sidle hs, Engine.blocksLeft_of_sidle (e := e.takeByte q rest) hs]
    simp only [Engine.takeByte_seq, Engine.takeByte_queue, Engine.takeByte_fin, Engine.takeByte_bcnt, hq,
      List.length_cons]
    omega
  · rw [Engine.blocksLeft_of_sidle hs, Engine.blocksLeft_of_not_sidle (by simp)]
    simp only [Engine.startBlock_seq, Engine.startBlock_queue, Engine.startBlock_fin, Engine.takeByte_queue,
      Engine.takeByte_fin, hs, hq, List.length_cons, Seq.left]
    omega
  · rw [Engine.blocksLeft_of_sidle hs, Engine.blocksLeft_of_sidle (e := e.latch) hs]
    simp [hs, hq, hf, Seq.left]

theorem Engine.exists_step_of_busy {e : Engine} (h : e.busy = true) : ∃ e', e.step = some e' := by
  cases hs : e.seq with
  | round i => exact ⟨_, Engine.step_round hs⟩
  | ff => exact ⟨_, Engine.step_ff hs⟩
  | sidle =>
    cases hq : e.queue with
    | nil => exact ⟨_, Engine.step_latch hs hq (by simpa [Engine.busy_eq_true_iff, hs, hq] using h)⟩
    | cons q rest =>
      by_cases hb : e.bcnt + 1 = 64
      · exact ⟨_, Engine.step_absorb_full hs hq hb⟩
      · exact ⟨_, Engine.step_absorb hs hq hb⟩

/-! ### Where the engine comes to rest (R192) -/

theorem Engine.settle_of_not_busy {e : Engine} (h : e.busy = false) : e.settle = e := Engine.runFor_quiescent h _

theorem Engine.settle_of_step {e e' : Engine} (h : e.step = some e') : e.settle = e'.settle := by
  rw [Engine.settle, Engine.remaining_of_step h, Engine.runFor_succ h, Engine.settle]

/-- An induction over the micro-steps left: what holds of an engine at rest, and of an engine whose next micro-step
leads to one of which it holds, holds of every engine. -/
theorem Engine.micro_induction {P : Engine → Prop} (rest : ∀ e, e.busy = false → P e)
    (next : ∀ e e', e.step = some e' → P e' → P e) (e : Engine) : P e := by
  cases hb : e.busy with
  | false => exact rest e hb
  | true =>
    obtain ⟨e', hstep⟩ := Engine.exists_step_of_busy hb
    exact next e e' hstep (Engine.micro_induction rest next e')
termination_by e.remaining
decreasing_by rw [Engine.remaining_of_step hstep]; exact Nat.lt_succ_self _

@[simp] theorem Engine.settle_busy (e : Engine) : e.settle.busy = false := by
  induction e using Engine.micro_induction with
  | rest e hb => rwa [Engine.settle_of_not_busy hb]
  | next e e' hstep ih => rwa [Engine.settle_of_step hstep]

theorem Engine.settle_runFor (n : Nat) (e : Engine) : (e.runFor n).settle = e.settle := by
  induction n generalizing e with
  | zero => rfl
  | succ n ih =>
    cases hb : e.busy with
    | false => rw [Engine.runFor_quiescent hb]
    | true =>
      obtain ⟨e', hstep⟩ := Engine.exists_step_of_busy hb
      rw [Engine.runFor_succ hstep, ih, Engine.settle_of_step hstep]

/-- The error record (R32). -/
def Engine.errorRecord (e : Engine) : Bool × Bool × BitVec 4 × Word := (e.errValid, e.errOvf, e.errCode, e.errCmd)

/-- The engine by itself never touches the error record. -/
@[simp] theorem Engine.settle_errorRecord (e : Engine) : e.settle.errorRecord = e.errorRecord := by
  induction e using Engine.micro_induction with
  | rest e hb => rw [Engine.settle_of_not_busy hb]
  | next e e' hstep ih =>
    obtain ⟨hvalid, hovf, hcode, hcmd⟩ := Engine.step_errors hstep
    rw [Engine.settle_of_step hstep, ih, Engine.errorRecord, hvalid, hovf, hcode, hcmd, Engine.errorRecord]

/-! ### One block (R177-R180) -/

/-- The register movement of four consecutive operations is the standard's rotating naming of a, b, c and d. -/
theorem roundOp_four (j : Fin 16) (x : Vector Word 16) (q : Quad) :
    roundOp ⟨4 * j + 3, by omega⟩ x (roundOp ⟨4 * j + 2, by omega⟩ x
      (roundOp ⟨4 * j + 1, by omega⟩ x (roundOp ⟨4 * j, by omega⟩ x q))) = standardGroup j x q := rfl

/-- Where the sequencer stands when `n` groups of four operations are done. -/
def seqAfterGroups (n : Nat) : Seq := if h : n < 16 then .round ⟨4 * n, by omega⟩ else .ff

theorem nextSeq_of_lt {n : Nat} (h : n < 63) : nextSeq ⟨n, by omega⟩ = .round ⟨n + 1, by omega⟩ := by
  simp [nextSeq, h]

theorem nextSeq_group (j : Fin 16) : nextSeq ⟨4 * j + 3, by omega⟩ = seqAfterGroups (j + 1) := by
  revert j
  decide

/-- Four micro-steps do a group of operations. -/
theorem Engine.runFor_group {e : Engine} (j : Fin 16) (h : e.seq = seqAfterGroups j) :
    e.runFor 4 = { e with cv := standardGroup j e.x e.cv, seq := seqAfterGroups (j + 1) } := by
  have hseq : e.seq = .round ⟨4 * j, by omega⟩ := by rw [h, seqAfterGroups, dif_pos j.isLt]
  rw [Engine.runFor_succ (Engine.step_round hseq),
    Engine.runFor_succ (Engine.step_round (nextSeq_of_lt (n := 4 * j) (by omega))),
    Engine.runFor_succ (Engine.step_round (nextSeq_of_lt (n := 4 * j + 1) (by omega))),
    Engine.runFor_succ (Engine.step_round (nextSeq_of_lt (n := 4 * j + 2) (by omega))), ← nextSeq_group, ← roundOp_four]
  rfl

/-- The first `n` groups of a block. -/
theorem Engine.runFor_groups {e : Engine} (h : e.seq = .round 0) {n : Nat} (hn : n ≤ 16) :
    e.runFor (4 * n) = { e with
      cv := ((List.finRange 16).take n).foldl (fun q j => standardGroup j e.x q) e.cv, seq := seqAfterGroups n } := by
  induction n with
  | zero => rw [seqAfterGroups]; simp [Engine.runFor, ← h]
  | succ n ih =>
    have htake : (List.finRange 16).take (n + 1) = (List.finRange 16).take n ++ [⟨n, hn⟩] := by
      have hlt : n < (List.finRange 16).length := by simpa using hn
      rw [List.take_add_one, List.getElem?_eq_getElem hlt, List.getElem_finRange]; rfl
    rw [Nat.mul_succ, Engine.runFor_add, ih (by omega), Engine.runFor_group ⟨n, hn⟩ rfl, htake, List.foldl_append]
    rfl

/-- A block that has started is compressed: sixteen groups, then the feed-forward. -/
theorem Engine.runFor_block {e : Engine} (hseq : e.seq = .round 0) (hsave : e.save = e.cv) :
    e.runFor 65 = { e with
      cv := compress e.cv e.x, x := Vector.replicate 16 0, bcnt := 0, seq := .sidle } := by
  rw [show 65 = 4 * 16 + 1 from rfl, Engine.runFor_add, Engine.runFor_groups hseq le_rfl,
    Engine.runFor_succ (Engine.step_ff rfl), compress, ← hsave, List.take_of_length_le (by simp)]
  rfl

end Sys2Proof.Machine
end

section
/-! Messages (R109, R137-R142, R180): the bytes an engine has absorbed, as the chaining value of their whole blocks and
a block in progress. Absorbing the queue extends them, whatever it holds, and FINAL's padding makes the chaining value
MD5's. -/

namespace Sys2Proof.Machine

/-! ### The bytes of a block (R138) -/

/-- Two blocks with the same 64 bytes are equal. -/
theorem block_ext {x y : Vector Word 16}
    (h : ∀ p : Fin 64, byteOf (x.get ⟨p / 4, by omega⟩) (p % 4) = byteOf (y.get ⟨p / 4, by omega⟩) (p % 4)) :
    x = y := by
  refine Vector.ext fun k hk => word_ext fun j hj => ?_
  have hp := h ⟨4 * k + j, by omega⟩
  have hdiv : (4 * k + j) / 4 = k := by omega
  have hmod : (4 * k + j) % 4 = j := by omega
  simpa [hdiv, hmod, Vector.get_eq_getElem] using hp

theorem byteOf_packBlock (bs : List Byte) (p : Fin 64) :
    byteOf ((packBlock bs).get ⟨p / 4, by omega⟩) (p % 4) = bs.getD p 0 := by
  rw [packBlock, Vector.get_ofFn, byteOf_wordOfBytes _ _ _ _ _ (by omega)]
  have hp : p.val = 4 * (p.val / 4) + p.val % 4 := by omega
  have hj : p.val % 4 < 4 := by omega
  generalize p.val % 4 = j at hp hj
  conv_rhs => rw [hp]
  interval_cases j <;> rfl

/-- With no byte yet the block is zero. -/
theorem packBlock_nil : packBlock [] = Vector.replicate 16 0 := rfl

/-- The next byte of a block goes to the place after those it has; past the block it goes nowhere (log 8). -/
theorem putByte_packBlock (bs : List Byte) (b : Byte) :
    putByte (packBlock bs) bs.length b = packBlock (bs ++ [b]) := by
  refine block_ext fun p => ?_
  rw [byteOf_putByte, byteOf_packBlock, byteOf_packBlock]
  grind

/-! ### The message an engine has absorbed -/

/-- The bytes of a message after its whole blocks. -/
def lastPart (m : List Byte) : List Byte := m.drop (64 * (m.length / 64))

theorem lastPart_length (m : List Byte) : (lastPart m).length = m.length % 64 := by
  rw [lastPart, List.length_drop]; omega

theorem lastPart_of_whole {m : List Byte} (h : m.length % 64 = 0) : lastPart m = [] :=
  List.eq_nil_of_length_eq_zero (by rw [lastPart_length, h])

/-- A byte that fills no block is one more byte of the last part. -/
theorem lastPart_append_of_ne {m : List Byte} (h : m.length % 64 + 1 ≠ 64) (b : Byte) :
    (m ++ [b]).length / 64 = m.length / 64 ∧ lastPart (m ++ [b]) = lastPart m ++ [b] := by
  have hdiv : (m ++ [b]).length / 64 = m.length / 64 := by rw [List.length_append, List.length_singleton]; omega
  refine ⟨hdiv, ?_⟩
  rw [lastPart, hdiv, List.drop_append_of_le_length (by omega), lastPart]

/-- A byte that fills a block makes one more whole block of the last part. -/
theorem lastPart_append_of_eq {m : List Byte} (h : m.length % 64 + 1 = 64) (b : Byte) :
    (m ++ [b]).length / 64 = m.length / 64 + 1 ∧
      blockAt (m ++ [b]) (m.length / 64) = packBlock (lastPart m ++ [b]) := by
  have hlen := lastPart_length m
  constructor
  · rw [List.length_append, List.length_singleton]; omega
  · rw [blockAt, List.drop_append_of_le_length (by omega), ← lastPart, List.take_of_length_le]
    rw [List.length_append, List.length_singleton]; omega

/-- An engine in phase ACTIVE between two blocks that has absorbed the bytes `m` since its INIT, whatever it has still
to absorb: `Engine.Holds` without the queue, `fin` and LEN. -/
structure Engine.Absorbed (e : Engine) (m : List Byte) : Prop where
  active : e.phase = .active
  idle : e.seq = .sidle
  cv : e.cv = chain (m.length / 64) m iv
  bcnt : e.bcnt = m.length % 64
  x : e.x = packBlock (lastPart m)

theorem Engine.Absorbed.putByte_eq {e : Engine} {m : List Byte} (h : e.Absorbed m) (b : Byte) :
    putByte e.x e.bcnt b = packBlock (lastPart m ++ [b]) := by
  rw [h.x, h.bcnt, ← lastPart_length, putByte_packBlock]

/-- Absorbing a byte extends the message by it, with the compression of the block that it fills, if it fills one. -/
theorem Engine.Absorbed.head {e : Engine} {m : List Byte} {q : QEntry} {rest : List QEntry} (h : e.Absorbed m)
    (hq : e.queue = q :: rest) : ∃ e' : Engine, e'.settle = e.settle ∧ e'.Absorbed (m ++ [q.byte]) ∧
      e'.queue = rest ∧ e'.fin = e.fin ∧ e'.len = if q.counted then e.len + 8 else e.len := by
  have hwhole : 64 * (m.length / 64) ≤ m.length := by omega
  have hput := h.putByte_eq q.byte
  by_cases hb : e.bcnt + 1 = 64
  · have hstep := Engine.step_absorb_full h.idle hq hb
    obtain ⟨hdiv, hblock⟩ := lastPart_append_of_eq (h.bcnt ▸ hb) q.byte
    have hmod : (m ++ [q.byte]).length % 64 = 0 := by
      have := h.bcnt; rw [List.length_append, List.length_singleton]; omega
    refine ⟨(e.takeByte q rest).startBlock.runFor 65, by rw [Engine.settle_runFor, Engine.settle_of_step hstep], ?_⟩
    rw [Engine.runFor_block rfl rfl]
    refine ⟨⟨h.active, rfl, ?_, hmod.symm, ?_⟩, rfl, rfl, rfl⟩
    · rw [hdiv, chain_succ, chain_append _ _ _ _ hwhole, hblock, ← h.cv, ← hput]; rfl
    · rw [lastPart_of_whole hmod, packBlock_nil]
  · have hstep := Engine.step_absorb h.idle hq hb
    obtain ⟨hdiv, hlast⟩ := lastPart_append_of_ne (h.bcnt ▸ hb) q.byte
    refine ⟨e.takeByte q rest, (Engine.settle_of_step hstep).symm, ⟨h.active, h.idle, ?_, ?_, ?_⟩, rfl, rfl, rfl⟩
    · rw [hdiv, chain_append _ _ _ _ hwhole, ← h.cv, Engine.takeByte_cv]
    · have := h.bcnt
      rw [Engine.takeByte_bcnt, List.length_append, List.length_singleton]; omega
    · rw [hlast, ← hput, Engine.takeByte_x]

/-- Absorbing the whole queue extends the message by its bytes, and LEN by those of them that are counted. -/
theorem Engine.Absorbed.drain {e : Engine} {m : List Byte} (h : e.Absorbed m) :
    ∃ e' : Engine, e'.settle = e.settle ∧ e'.Absorbed (m ++ e.queue.map QEntry.byte) ∧ e'.queue = [] ∧
      e'.fin = e.fin ∧ e'.len = e.len + BitVec.ofNat 64 (8 * e.queue.countP QEntry.counted) := by
  induction hq : e.queue generalizing e m with
  | nil => exact ⟨e, rfl, by simpa using h, hq, rfl, by simp⟩
  | cons q rest ih =>
    obtain ⟨e₁, hsettle₁, habs₁, hqueue₁, hfin₁, hlen₁⟩ := h.head hq
    obtain ⟨e₂, hsettle₂, habs₂, hqueue₂, hfin₂, hlen₂⟩ := ih habs₁ hqueue₁
    refine ⟨e₂, hsettle₂.trans hsettle₁, by simpa using habs₂, hqueue₂, hfin₂.trans hfin₁, ?_⟩
    rw [hlen₂, hlen₁]
    cases hc : q.counted <;> simp [hc, Nat.mul_add, BitVec.ofNat_add, BitVec.add_assoc, BitVec.add_comm]

/-! ### Holding a message (R109) -/

theorem Engine.Holds.absorbed {e : Engine} {m : List Byte} (h : e.Holds m) : e.Absorbed m := by
  obtain ⟨hp, hb, hcv, hbcnt, hx, -⟩ := h
  exact ⟨hp, ((Engine.busy_eq_false_iff e).1 hb).1, hcv, hbcnt, hx⟩

theorem Engine.Absorbed.holds {e : Engine} {m : List Byte} (h : e.Absorbed m) (hb : e.busy = false)
    (hlen : e.len = BitVec.ofNat 64 (8 * m.length)) : e.Holds m :=
  ⟨h.active, hb, h.cv, h.bcnt, h.x, hlen⟩

theorem Engine.Holds.active {e : Engine} {m : List Byte} (h : e.Holds m) : e.phase = .active := h.1

theorem Engine.Holds.not_busy {e : Engine} {m : List Byte} (h : e.Holds m) : e.busy = false := h.2.1

theorem Engine.Holds.len_eq {e : Engine} {m : List Byte} (h : e.Holds m) :
    e.len = BitVec.ofNat 64 (8 * m.length) := by
  obtain ⟨-, -, -, -, -, hlen⟩ := h
  exact hlen

theorem Engine.startContext_holds {e : Engine} (h : e.busy = false) : e.startContext.Holds [] :=
  ⟨rfl, by rwa [Engine.startContext_busy], rfl, rfl, rfl, rfl⟩

/-- Counted bytes extend the message (R103, R104, R137). -/
theorem Engine.Holds.enqueue {e : Engine} {m : List Byte} (h : e.Holds m) (bs : List Byte) :
    (e.enqueue (countedEntries bs)).settle.Holds (m ++ bs) := by
  obtain ⟨-, hq, hf⟩ := (Engine.busy_eq_false_iff e).1 h.not_busy
  have habs : (e.enqueue (countedEntries bs)).Absorbed m :=
    ⟨h.active, h.absorbed.idle, h.absorbed.cv, h.absorbed.bcnt, h.absorbed.x⟩
  obtain ⟨e', hsettle, habs', hqueue, hfin, hlen⟩ := habs.drain
  rw [Engine.enqueue_queue, hq, List.nil_append] at habs' hlen
  rw [countedEntries_byte] at habs'
  have hb' : e'.busy = false := (Engine.busy_eq_false_iff e').2 ⟨habs'.idle, hqueue, hfin.trans hf⟩
  rw [← hsettle, Engine.settle_of_not_busy hb']
  refine habs'.holds hb' ?_
  rw [hlen, Engine.enqueue_len, h.len_eq, ← BitVec.ofNat_add]
  simp [countedEntries, List.countP_map, Function.comp_def, Nat.mul_add]

/-- Settles O53: INIT leaves the empty message, and both feeds queue counted bytes. -/
theorem feedingExtendsTheMessage : Obligations.FeedingExtendsTheMessage := by
  unfold Obligations.FeedingExtendsTheMessage
  exact ⟨fun e hb => Engine.startContext_holds hb,
    fun e m h => ⟨fun u => h.enqueue (utf8Bytes u), fun b => h.enqueue [b]⟩⟩

/-! ### FINAL (R105, R157, R210) -/

theorem padZeros_mod (n : Nat) : padZeros (n % 64) = padZeros n := by
  unfold padZeros; omega

/-- The padded message is a whole number of blocks. -/
theorem padded_length_mod (m : List Byte) : (padded m).length % 64 = 0 := by
  rw [padded, List.length_append, padBytes_length]
  exact (padZeros_fills m.length).1

/-- What FINAL queues after the message held is the rest of its padded message (R152, R153). -/
theorem Engine.Holds.append_padBytes {e : Engine} {m : List Byte} (h : e.Holds m) :
    m ++ padBytes (padZeros e.bcnt) e.len = padded m := by
  rw [h.absorbed.bcnt, h.len_eq, padZeros_mod, padded]

/-- FINAL absorbs the padding, whose bytes are not counted, and latches. -/
theorem Engine.Holds.finish {e : Engine} {m : List Byte} (h : e.Holds m) :
    ∃ e' : Engine, e.finish.settle = e'.latch ∧ e'.latch.busy = false ∧ e'.Absorbed (padded m) ∧ e'.len = e.len := by
  obtain ⟨-, hq, -⟩ := (Engine.busy_eq_false_iff e).1 h.not_busy
  have habs : e.finish.Absorbed m := ⟨h.active, h.absorbed.idle, h.absorbed.cv, h.absorbed.bcnt, h.absorbed.x⟩
  obtain ⟨e', hsettle, habs', hqueue, hfin, hlen⟩ := habs.drain
  rw [Engine.finish_queue, hq, List.nil_append] at habs' hlen
  rw [paddingEntries_byte, h.append_padBytes] at habs'
  have hb' : e'.latch.busy = false := (Engine.busy_eq_false_iff _).2 ⟨habs'.idle, hqueue, rfl⟩
  refine ⟨e', ?_, hb', habs', ?_⟩
  · rw [← hsettle, Engine.settle_of_step (Engine.step_latch habs'.idle hqueue hfin), Engine.settle_of_not_busy hb']
  · rw [hlen, Engine.finish_len]
    simp [paddingEntries, List.countP_map, Function.comp_def]

/-- Settles O54: the engine that has absorbed the padded message has the MD5 in A..D, and the latch copies it. -/
theorem finalLatchesTheMd5 : Obligations.FinalLatchesTheMd5 := by
  unfold Obligations.FinalLatchesTheMd5
  intro e m h d
  obtain ⟨e', hd, hb, habs, hlen⟩ := h.finish
  have hrecord : d.errorRecord = e.errorRecord := Engine.settle_errorRecord e.finish
  simp only [Engine.errorRecord, Prod.mk.injEq] at hrecord
  change d = e'.latch at hd
  rw [hd] at hrecord ⊢
  refine ⟨habs.cv, habs.cv, rfl, hb, ?_, ?_, hlen, hrecord⟩
  · rw [Engine.latch_bcnt, habs.bcnt, padded_length_mod]
  · rw [Engine.latch_x, habs.x, lastPart_of_whole (padded_length_mod m), packBlock_nil]; rfl

/-! ### A context (R109, R142, R215) -/

/-- A command that the check accepts does its pseudocode. -/
theorem Engine.submit_encode_of_accepted {e : Engine} {i : Instr} (h : rejection i e = none) :
    e.submit (encode i) = e.execute i := by
  rw [Engine.submit_of_command (decodeOfEncode i), Engine.issue, h]

theorem Engine.submit_init {e : Engine} (h : e.busy = false) : e.submit (encode .init) = e.startContext :=
  Engine.submit_encode_of_accepted (rejection_of_any_phase h rfl)

/-- An engine that holds a message accepts every command. -/
theorem Engine.Holds.submit {e : Engine} {m : List Byte} (h : e.Holds m) (i : Instr) :
    e.submit (encode i) = e.execute i :=
  Engine.submit_encode_of_accepted (rejection_of_active h.not_busy h.active i)

/-- The commands that append to the message. -/
def IsFeed (i : Instr) : Prop := (∃ u, i = .feedcu u) ∨ (∃ b, i = .feedb b)

/-- The engine after the commands `is`, coming to rest after each. -/
def Engine.feed (e : Engine) (is : List Instr) : Engine :=
  is.foldl (fun e i => (e.submit (encode i)).settle) e

theorem Engine.Holds.feed_one {e : Engine} {m : List Byte} {i : Instr} (h : e.Holds m) (hi : IsFeed i) :
    (e.submit (encode i)).settle.Holds (m ++ messageBytes i) := by
  rw [h.submit]
  obtain ⟨u, rfl⟩ | ⟨b, rfl⟩ := hi
  · exact h.enqueue (utf8Bytes u)
  · exact h.enqueue [b]

/-- Feeding appends the bytes of the commands in their order. -/
theorem Engine.Holds.feed {e : Engine} {m : List Byte} {is : List Instr} (h : e.Holds m)
    (his : ∀ i ∈ is, IsFeed i) : (e.feed is).Holds (m ++ is.flatMap messageBytes) := by
  induction is generalizing e m with
  | nil => simpa [Engine.feed] using h
  | cons i is ih =>
    obtain ⟨hi, his⟩ := List.forall_mem_cons.1 his
    rw [List.flatMap_cons, ← List.append_assoc]
    exact ih (h.feed_one hi) his

/-- Settles O55: INIT starts the empty message, the feeds extend it, and FINAL latches its MD5. -/
theorem contextDigestIsMd5 : Obligations.ContextDigestIsMd5 := by
  unfold Obligations.ContextDigestIsMd5
  intro e is hb his fed
  have hfed : fed.Holds (is.flatMap messageBytes) := by
    have hinit : (e.submit (encode .init)).Holds [] := by
      rw [Engine.submit_init hb]; exact Engine.startContext_holds hb
    exact hinit.feed his
  rw [hfed.submit]
  exact (finalLatchesTheMd5 fed _ hfed).1

end Sys2Proof.Machine
end

section
/-! A host that waits (R110, R111, R273): what a program that touches the engine only at rest does, command by command;
every step of the machine but a reset keeps that outcome and brings it nearer. -/

namespace Sys2Proof.Machine

/-! ### Programs that touch the engine only at rest -/

/-- The host operations `ops`, begun on the engine `e` with `rs` read so far, give every command to an engine at rest
and read only from one, and leave in the end the engine `f`, at rest, and the reads `out`. A WAIT is where the engine
comes to rest. -/
inductive PoliteRun (f : Engine) (out : List HostRead) : List HostOp → Engine → List HostRead → Prop where
  | done (hb : f.busy = false) : PoliteRun f out [] f out
  | wait {ops e rs} (h : PoliteRun f out ops e.settle rs) : PoliteRun f out (.wait :: ops) e rs
  | command {i ops e rs} (hb : e.busy = false) (h : PoliteRun f out ops (e.submit (encode i)) rs) :
      PoliteRun f out (command i :: ops) e rs
  | read {r dst ops e rs} (hb : e.busy = false) (h : PoliteRun f out ops e (rs ++ [⟨r.offset, e.regValue r⟩])) :
      PoliteRun f out (.read r.offset 4 dst :: ops) e rs

section outcome
variable {f e e' : Engine} {out rs : List HostRead} {ops : List HostOp} {s t : State}

/-- While the engine is busy the host is at a WAIT, so a micro-step changes nothing of the outcome. -/
theorem PoliteRun.microStep (h : PoliteRun f out ops e rs) (hstep : e.step = some e') :
    PoliteRun f out ops e' rs := by
  have hbusy := Engine.busy_of_step hstep
  cases h with
  | wait h => exact .wait (Engine.settle_of_step hstep ▸ h)
  | done hb | command hb h | read hb h => rw [hb] at hbusy; cases hbusy

theorem PoliteRun.eq_of_nil (h : PoliteRun f out [] e rs) : e = f ∧ rs = out := by
  cases h with
  | done hb => exact ⟨rfl, rfl⟩

/-! ### The outcome of a state -/

/-- From the state `s`, with no reset to come, the host's program runs politely to the engine `f` and the reads
`out`. -/
structure State.Bound (s : State) (f : Engine) (out : List HostRead) : Prop where
  run : PoliteRun f out s.pending s.eng s.reads
  noReset : s.noReset

/-- `t` is nearer to the outcome than `s`: a scripted turn is used up, or, with as many turns, an operation of the host
is, or, with as many operations, a micro-step. -/
def State.Nearer (t s : State) : Prop :=
  t.turns.length < s.turns.length ∨ t.turns.length = s.turns.length ∧
    (t.pending.length < s.pending.length ∨ t.pending.length = s.pending.length ∧ t.eng.remaining < s.eng.remaining)

/-- The turn of the host: at rest it takes its next operation; at a WAIT it may stay. -/
theorem PoliteRun.hostMoves {ts : List Turn} (h : PoliteRun f out ops e rs) (hp : s.pending = ops) (he : s.eng = e)
    (hr : s.reads = rs) (hm : s.hostMoves ts) :
    ∃ t : State, step s = .next t ∧ PoliteRun f out t.pending t.eng t.reads ∧ t.turns = ts ∧
      (e.busy = false → ops ≠ [] → t.pending.length < ops.length) := by
  subst he hr
  cases h with
  | done hb =>
    exact ⟨{ s with turns := ts }, by simp only [step_of_hostMoves hm, hostTurn, hp], by simpa only [hp] using .done hb,
      rfl, fun _ hne => absurd rfl hne⟩
  | wait h =>
    refine ⟨_, step_wait hp hm, ?_, pollOp_turns .., fun hb _ => ?_⟩
    · rw [pollOp_pending, pollOp_eng, pollOp_reads]
      cases hb : s.eng.busy with
      | true => exact .wait h
      | false => rwa [Engine.settle_of_not_busy hb] at h
    · rw [pollOp_pending]; simp [hb]
  | command hb h =>
    refine ⟨_, (step_write hp hm (by decide) (by decide)).trans (submitIsCheckThenExecute _ _), h, rfl, fun _ _ => ?_⟩
    exact Nat.lt_succ_self _
  | read hb h =>
    obtain ⟨t, hstep, heng, hpending, hturns, hreads, -⟩ := step_read hp hm
    rw [Engine.readValue_of_not_busy hb] at hreads
    refine ⟨t, hstep, ?_, hturns, fun _ _ => ?_⟩
    · rwa [hpending, heng, hreads]
    · rw [hpending]; exact Nat.lt_succ_self _

/-- The turn of the engine: its micro-step, if it has one. -/
theorem PoliteRun.engineMoves (h : PoliteRun f out s.pending s.eng s.reads) :
    ∃ t : State, engineTurn s = .next t ∧ PoliteRun f out t.pending t.eng t.reads ∧ t.turns = s.turns ∧
      t.pending = s.pending ∧ (s.eng.busy = true → t.eng.remaining < s.eng.remaining) := by
  cases hstep : s.eng.step with
  | none =>
    refine ⟨s, by simp only [engineTurn, hstep], h, rfl, rfl, fun hb => ?_⟩
    obtain ⟨e', he'⟩ := Engine.exists_step_of_busy hb
    cases hstep.symm.trans he'
  | some e' =>
    refine ⟨{ s with eng := e' }, by simp only [engineTurn, hstep], h.microStep hstep, rfl, rfl, fun _ => ?_⟩
    rw [Engine.remaining_of_step hstep]; exact Nat.lt_succ_self _

/-- Every step keeps the outcome, and brings it nearer while the host has operations to come. -/
theorem State.Bound.advance (h : s.Bound f out) :
    ∃ t, step s = .next t ∧ t.Bound f out ∧ (s.pending ≠ [] → t.Nearer s) := by
  obtain ⟨hrun, hnr⟩ := h
  cases hts : s.turns with
  | nil =>
    cases hb : s.eng.busy with
    | false =>
      obtain ⟨t, hstep, hrun', hturns, hnear⟩ := hrun.hostMoves rfl rfl rfl (.inr ⟨hts, rfl, hb⟩)
      refine ⟨t, hstep, ⟨hrun', by simp [State.noReset, hturns]⟩, fun hne => ?_⟩
      exact .inr ⟨by rw [hturns, hts], .inl (hnear hb hne)⟩
    | true =>
      obtain ⟨t, hturn, hrun', hturns, hpending, hnear⟩ := hrun.engineMoves
      refine ⟨t, by simp only [step, hts, hb, if_true, hturn], ⟨hrun', by rwa [State.noReset, hturns]⟩, fun _ => ?_⟩
      exact .inr ⟨by rw [hturns], .inr ⟨by rw [hpending], hnear hb⟩⟩
  | cons turn ts =>
    rw [State.noReset, hts, List.mem_cons, not_or] at hnr
    obtain ⟨hturn, hnr⟩ := hnr
    have hused : ∀ t : State, t.turns = ts → t.noReset ∧ t.Nearer s := fun t ht =>
      ⟨by rwa [State.noReset, ht], .inl (by rw [ht, hts]; exact Nat.lt_succ_self _)⟩
    cases turn with
    | host =>
      obtain ⟨t, hstep, hrun', hturns, -⟩ := hrun.hostMoves rfl rfl rfl (.inl hts)
      obtain ⟨hnr', hnear⟩ := hused t hturns
      exact ⟨t, hstep, ⟨hrun', hnr'⟩, fun _ => hnear⟩
    | engine =>
      obtain ⟨t, hturn, hrun', hturns, -⟩ := PoliteRun.engineMoves (s := { s with turns := ts }) hrun
      obtain ⟨hnr', hnear⟩ := hused t hturns
      exact ⟨t, by simp only [step, hts, hturn], ⟨hrun', hnr'⟩, fun _ => hnear⟩
    | reset => exact absurd rfl hturn

/-- Whenever the program is done, its outcome is the engine and the reads. -/
theorem State.Bound.of_run {n : Nat} (h : s.Bound f out) (hrun : Sys2Proof.core.run n s = .next t)
    (hp : t.pending = []) : t.eng = f ∧ t.reads = out := by
  have hkeep : ∀ s t : State, s.Bound f out → step s = .next t → t.Bound f out := by
    intro s t hs hstep
    obtain ⟨t', hstep', ht', -⟩ := hs.advance
    rw [hstep] at hstep'; cases hstep'
    exact ht'
  have ht : t.Bound f out := run_keeps (P := fun s => s.Bound f out) hkeep n h hrun
  exact (hp ▸ ht.run).eq_of_nil

end outcome

/-- The program gets done. -/
theorem State.Bound.exists_run {s : State} {f : Engine} {out : List HostRead} (h : s.Bound f out) :
    ∃ (n : Nat) (t : State), Sys2Proof.core.run n s = .next t ∧ t.pending = [] := by
  by_cases hp : s.pending = []
  · exact ⟨0, s, rfl, hp⟩
  · obtain ⟨s', hstep, h', hnear⟩ := h.advance
    have hnear := hnear hp
    obtain ⟨n, t, hrun, ht⟩ := State.Bound.exists_run h'
    have hcore : Sys2Proof.core.step s = .next s' := hstep
    exact ⟨n + 1, t, by simp only [Host.Core.run, hcore, hrun], ht⟩
termination_by (s.turns.length, s.pending.length, s.eng.remaining)
decreasing_by simpa [Prod.lex_def, State.Nearer] using hnear

/-! ### The programs of R110 and R111 -/

/-- The WAITs of R110 are what makes its program polite, whatever the engine is doing at first. -/
theorem politeRun_politeProgram (is : List Instr) (e : Engine) (rs : List HostRead) :
    PoliteRun (e.settle.feed is) rs (politeProgram is) e rs := by
  induction is generalizing e with
  | nil => exact .wait (.done e.settle_busy)
  | cons i is ih => exact .wait (.command e.settle_busy (ih _))

/-- Settles O56: the program is polite, and its outcome is the commands' own, each from rest. -/
theorem waitingMakesTimingIrrelevant : Obligations.WaitingMakesTimingIrrelevant := by
  unfold Obligations.WaitingMakesTimingIrrelevant
  intro s is _ hnr hp
  have h : s.Bound (s.eng.settle.feed is) s.reads := ⟨hp ▸ politeRun_politeProgram is s.eng s.reads, hnr⟩
  exact ⟨fun n t hrun ht => (h.of_run hrun ht).1, h.exists_run⟩

/-- The feeds of R111, each with its WAIT. -/
theorem PoliteRun.feedUnits {f : Engine} {out rs : List HostRead} {ops : List HostOp} {us : List CodeUnit} {e : Engine}
    {m : List Byte} (hm : e.Holds m) (h : PoliteRun f out ops (e.feed (us.map .feedcu)) rs) :
    PoliteRun f out (feedUnits us ++ ops) e rs := by
  induction us generalizing e m with
  | nil => exact h
  | cons u us ih => exact .command hm.not_busy (.wait (ih (hm.feed_one (.inl ⟨u, rfl⟩)) h))

/-- The four reads of DIGEST, by an engine at rest. -/
theorem politeRun_readDigestOps {f : Engine} (hb : f.busy = false) (rs : List HostRead) :
    PoliteRun f (rs ++ [⟨0x20, f.digest.a⟩, ⟨0x24, f.digest.b⟩, ⟨0x28, f.digest.c⟩, ⟨0x2C, f.digest.d⟩])
      (readDigestOps none) f rs := by
  refine .read hb (.read hb (.read hb (.read hb ?_)))
  simp only [List.append_assoc]
  exact .done hb

/-! ### What the procedure of R111 leaves -/

/-- The error record is as it was after a command that the check accepts. -/
theorem Engine.execute_errorRecord (i : Instr) (e : Engine) : (e.execute i).errorRecord = e.errorRecord := by
  cases i <;> rfl

theorem Engine.Holds.feed_errorRecord {e : Engine} {m : List Byte} {is : List Instr} (h : e.Holds m)
    (his : ∀ i ∈ is, IsFeed i) : (e.feed is).errorRecord = e.errorRecord := by
  induction is generalizing e m with
  | nil => rfl
  | cons i is ih =>
    obtain ⟨hi, his⟩ := List.forall_mem_cons.1 his
    have hone : (e.submit (encode i)).settle.errorRecord = e.errorRecord := by
      rw [Engine.settle_errorRecord, h.submit, Engine.execute_errorRecord]
    exact (ih (h.feed_one hi) his).trans hone

/-- The engine after the procedure of R111: INIT once it is at rest, the feeds, and FINAL, at rest again. -/
def Engine.digested (e : Engine) (us : List CodeUnit) : Engine :=
  ((e.settle.startContext.feed (us.map .feedcu)).execute .final).settle

theorem isFeed_of_mem_map_feedcu (us : List CodeUnit) : ∀ i ∈ us.map Instr.feedcu, IsFeed i := by
  intro i hi
  obtain ⟨u, -, rfl⟩ := List.mem_map.1 hi
  exact .inl ⟨u, rfl⟩

section digested
variable (e : Engine) (us : List CodeUnit)

theorem Engine.startContext_settle_holds : e.settle.startContext.Holds [] :=
  Engine.startContext_holds e.settle_busy

theorem Engine.feed_units_holds : (e.settle.startContext.feed (us.map .feedcu)).Holds (us.flatMap utf8Bytes) := by
  have h := e.startContext_settle_holds.feed (isFeed_of_mem_map_feedcu us)
  rwa [List.flatMap_map] at h

theorem Engine.digested_digest : (e.digested us).digest = md5 (us.flatMap utf8Bytes) :=
  (finalLatchesTheMd5 _ _ (e.feed_units_holds us)).1

theorem Engine.digested_errorRecord : (e.digested us).errorRecord = e.errorRecord := by
  rw [Engine.digested, Engine.settle_errorRecord, Engine.execute_errorRecord,
    e.startContext_settle_holds.feed_errorRecord (isFeed_of_mem_map_feedcu us)]
  exact e.settle_errorRecord

/-- The procedure of R111 is polite: INIT leaves BUSY at 0, every feed and FINAL have their WAIT. -/
theorem politeRun_digestProcedure (rs : List HostRead) :
    PoliteRun (e.digested us)
      (rs ++ [⟨0x20, (e.digested us).digest.a⟩, ⟨0x24, (e.digested us).digest.b⟩,
        ⟨0x28, (e.digested us).digest.c⟩, ⟨0x2C, (e.digested us).digest.d⟩])
      (digestProcedure us) e rs := by
  have hfed := e.feed_units_holds us
  have hreads := politeRun_readDigestOps (f := e.digested us) (Engine.settle_busy _) rs
  rw [digestProcedure, List.append_assoc, List.append_assoc]
  refine .wait (.command e.settle_busy ?_)
  rw [Engine.submit_init e.settle_busy]
  refine PoliteRun.feedUnits e.startContext_settle_holds (.command hfed.not_busy (.wait ?_))
  rwa [hfed.submit]

end digested

/-! ### The text of a digest (R213) -/

theorem hexRender_length (q : Quad) : (hexRender q).length = 32 := rfl

theorem hexDigit_mem (n : BitVec 4) : hexDigit n ∈ hexAlphabet := by
  revert n
  decide

theorem mem_hexAlphabet_of_mem_hexRender {q : Quad} {c : Char} (h : c ∈ hexRender q) : c ∈ hexAlphabet := by
  obtain ⟨b, -, hc⟩ := List.mem_flatMap.1 h
  obtain rfl | rfl : c = hexDigit (b.extractLsb' 4 4) ∨ c = hexDigit (b.extractLsb' 0 4) := by
    simpa [hexByte] using hc
  · exact hexDigit_mem _
  · exact hexDigit_mem _

/-- Settles O57: the procedure is polite, so timing does not matter, and its outcome is that of the context it feeds. -/
theorem digestProcedureReturnsTheMd5 : Obligations.DigestProcedureReturnsTheMd5 := by
  unfold Obligations.DigestProcedureReturnsTheMd5
  intro s us _ hnr hp
  have h : s.Bound (s.eng.digested us) _ := ⟨hp ▸ politeRun_digestProcedure s.eng us s.reads, hnr⟩
  refine ⟨fun n t hrun ht => ?_, h.exists_run⟩
  obtain ⟨heng, hreads⟩ := h.of_run hrun ht
  have hrecord := s.eng.digested_errorRecord us
  rw [← heng] at hreads hrecord
  simp only [Engine.errorRecord, Prod.mk.injEq] at hrecord
  refine ⟨t.eng.digest, hreads, ?_, hexRender_length _, fun c hc => mem_hexAlphabet_of_mem_hexRender hc, hrecord⟩
  rw [heng, Engine.digested_digest]

end Sys2Proof.Machine
end

section
/-! Byte preparation (R131, R137-R141): the bytes of a code unit as numbers, their agreement with standard UTF-8, and
what Absorb and the micro-steps of a block do to the byte queue and the block buffer. -/

namespace Sys2Proof.Machine

/-! ### The bytes of a code unit (R131, R132) -/

/-- A marker byte whose low `n` bits are 0 and an `n`-bit field below it do not overlap. -/
theorem marker_or_field_toNat {n : Nat} (m : Byte) (v : BitVec n) (hn : n ≤ 8) (hdvd : 2 ^ n ∣ m.toNat) :
    (m ||| v.setWidth 8).toNat = m.toNat + v.toNat := by
  have hm := Nat.div_mul_cancel hdvd
  rw [BitVec.toNat_or, BitVec.toNat_setWidth_of_le hn]
  conv_lhs => rw [← hm, ← Nat.shiftLeft_eq]
  rw [shiftLeft_or_eq_add _ _ n v.isLt, hm]

section utf8Bytes
variable {u : CodeUnit}

theorem utf8Bytes_of_one (h : u.toNat ≤ 0x7F) : (utf8Bytes u).map BitVec.toNat = [u.toNat] := by
  have hu : u ≤ 0x007F#16 := h
  simp only [utf8Bytes, if_pos hu, List.map_cons, List.map_nil, BitVec.extractLsb'_toNat, Nat.shiftRight_zero]
  rw [Nat.mod_eq_of_lt (by omega)]

theorem utf8Bytes_of_two (hlo : 0x7F < u.toNat) (hhi : u.toNat ≤ 0x7FF) :
    (utf8Bytes u).map BitVec.toNat = [0xC0 + u.toNat / 64, 0x80 + u.toNat % 64] := by
  have h7F : ¬ u ≤ 0x007F#16 := Nat.not_le.2 hlo
  have h7FF : u ≤ 0x07FF#16 := hhi
  simp only [utf8Bytes, if_neg h7F, if_pos h7FF, List.map_cons, List.map_nil]
  rw [marker_or_field_toNat _ _ (by decide) (by decide), marker_or_field_toNat _ _ (by decide) (by decide)]
  have hlead : u.toNat / 64 % 32 = u.toNat / 64 := Nat.mod_eq_of_lt (by omega)
  simp [Nat.shiftRight_eq_div_pow, hlead]

theorem utf8Bytes_of_three (h : 0x7FF < u.toNat) : (utf8Bytes u).map BitVec.toNat =
    [0xE0 + u.toNat / 4096, 0x80 + u.toNat / 64 % 64, 0x80 + u.toNat % 64] := by
  have h7F : ¬ u ≤ 0x007F#16 := Nat.not_le.2 (Nat.lt_trans (by decide) h)
  have h7FF : ¬ u ≤ 0x07FF#16 := Nat.not_le.2 h
  simp only [utf8Bytes, if_neg h7F, if_neg h7FF, List.map_cons, List.map_nil]
  rw [marker_or_field_toNat _ _ (by decide) (by decide), marker_or_field_toNat _ _ (by decide) (by decide),
    marker_or_field_toNat _ _ (by decide) (by decide)]
  have hlead : u.toNat / 4096 % 16 = u.toNat / 4096 := Nat.mod_eq_of_lt (by omega)
  simp [Nat.shiftRight_eq_div_pow, hlead]

theorem utf8Bytes_length_of_three (h : 0x7FF < u.toNat) : (utf8Bytes u).length = 3 := by
  simpa using congrArg List.length (utf8Bytes_of_three h)

end utf8Bytes

/-- Settles O18: a surrogate is past 0x7FF, and its top four bits are 0xD. -/
theorem utf8Layout : Obligations.Utf8Layout := by
  unfold Obligations.Utf8Layout
  refine ⟨by decide, by decide, fun u => ⟨fun hlo hhi => ?_, utf8Bytes_of_one, utf8Bytes_of_two, utf8Bytes_of_three⟩⟩
  have htop : u.toNat / 4096 = 0xD := by omega
  rw [utf8Bytes_of_three (by omega), htop]

/-! ### Agreement with standard UTF-8 (R130, R132, R133) -/

section utf16Units
variable {c : Char}

theorem utf16Units_of_bmp (h : c.toNat < 0x10000) : utf16Units c = [BitVec.ofNat 16 c.toNat] := by
  rw [utf16Units, if_pos h]

/-- Both units of a surrogate pair lie in the 3-byte range. -/
theorem utf16Units_of_supplementary (h : 0x10000 ≤ c.toNat) :
    ∃ hi lo : CodeUnit, utf16Units c = [hi, lo] ∧ 0x7FF < hi.toNat ∧ 0x7FF < lo.toNat := by
  have hc : c.toNat < 0xD800 ∨ 0xDFFF < c.toNat ∧ c.toNat < 0x110000 := c.valid
  refine ⟨_, _, by rw [utf16Units, if_neg (by omega)], ?_, ?_⟩ <;> rw [BitVec.toNat_ofNat] <;> omega

/-- The standard encoding of a character up to U+FFFF, in the ranges of R131. -/
theorem utf8EncodeChar_of_bmp (h : c.toNat < 0x10000) : (String.utf8EncodeChar c).map UInt8.toNat =
    if c.toNat ≤ 0x7F then [c.toNat]
    else if c.toNat ≤ 0x7FF then [0xC0 + c.toNat / 64, 0x80 + c.toNat % 64]
    else [0xE0 + c.toNat / 4096, 0x80 + c.toNat / 64 % 64, 0x80 + c.toNat % 64] := by
  have hv : c.val.toNat = c.toNat := rfl
  simp only [String.utf8EncodeChar, hv]
  split
  · have hbyte : c.toNat < 256 := by omega
    simp [hbyte]
  split
  · have hlead : (c.toNat / 64 % 32 + 192) % 256 = 0xC0 + c.toNat / 64 := by omega
    have hlast : (c.toNat % 64 + 128) % 256 = 0x80 + c.toNat % 64 := by omega
    simp [hlead, hlast]
  · have hlead : (c.toNat / 4096 % 16 + 224) % 256 = 0xE0 + c.toNat / 4096 := by omega
    have hmid : (c.toNat / 64 % 64 + 128) % 256 = 0x80 + c.toNat / 64 % 64 := by omega
    have hlast : (c.toNat % 64 + 128) % 256 = 0x80 + c.toNat % 64 := by omega
    rw [if_pos (by omega)]
    simp [hlead, hmid, hlast]

end utf16Units

/-- Settles O19: both encodings split at 0x7F and 0x7FF, and each half of a surrogate pair takes 3 bytes by itself. -/
theorem utf8AgreesUpToFFFF : Obligations.Utf8AgreesUpToFFFF := by
  unfold Obligations.Utf8AgreesUpToFFFF
  refine fun c => ⟨fun h => ?_, fun h => ⟨?_, ?_⟩⟩
  · have hu : (BitVec.ofNat 16 c.toNat).toNat = c.toNat := by rw [BitVec.toNat_ofNat]; omega
    rw [utf16Units_of_bmp h, List.flatMap_singleton, utf8EncodeChar_of_bmp h]
    split
    · rw [utf8Bytes_of_one (by omega), hu]
    split
    · rw [utf8Bytes_of_two (by omega) (by omega), hu]
    · rw [utf8Bytes_of_three (by omega), hu]
  · obtain ⟨hi, lo, hunits, hhi, hlo⟩ := utf16Units_of_supplementary h
    simp [hunits, utf8Bytes_length_of_three hhi, utf8Bytes_length_of_three hlo]
  · rw [String.length_utf8EncodeChar, Char.utf8Size_eq_four_iff]
    exact h

/-! ### Absorb (R137-R141) -/

/-- Settles O24: the byte goes into X in either case, and the 64th one also starts the block. -/
theorem absorbMovesOneByte : Obligations.AbsorbMovesOneByte := by
  unfold Obligations.AbsorbMovesOneByte
  intro e q rest hs hq hb
  by_cases hfull : e.bcnt + 1 = 64
  · exact ⟨_, Engine.step_absorb_full hs hq hfull, rfl, fun p => byteOf_putByte e.x e.bcnt q.byte p,
      fun _ => by omega, fun _ => ⟨rfl, rfl⟩⟩
  · exact ⟨_, Engine.step_absorb hs hq hfull, rfl, fun p => byteOf_putByte e.x e.bcnt q.byte p,
      fun _ => ⟨rfl, hs⟩, fun _ => by omega⟩

/-- Settles O25: past SIDLE a micro-step is a round operation or the feed-forward, and neither takes from the queue. -/
theorem noAbsorbDuringABlock : Obligations.NoAbsorbDuringABlock := by
  unfold Obligations.NoAbsorbDuringABlock
  intro e e' hstep hns
  obtain ⟨i, -, rfl⟩ | ⟨hff, rfl⟩ | ⟨q, rest, hs, -⟩ | ⟨q, rest, hs, -⟩ | ⟨hs, -⟩ := Engine.step_cases hstep
  · exact ⟨e.round_queue i, e.round_len i, fun _ => ⟨e.round_x i, e.round_bcnt i⟩⟩
  · exact ⟨e.feedForward_queue, e.feedForward_len, absurd hff⟩
  · exact absurd hs hns
  · exact absurd hs hns
  · exact absurd hs hns

end Sys2Proof.Machine
end

section
/-! The padding (R151-R156): the zero count, the bytes FINAL queues and their number, the blocks they fill, and the
place of the length in the last block. -/

namespace Sys2Proof.Machine

/-! ### The padding sequence (R152, R153) -/

/-- No smaller count of zeros brings the block to 56 bytes. -/
theorem padZeros_le {b z : Nat} (h : (b + 1 + z) % 64 = 56) : padZeros b ≤ z := by
  obtain ⟨hfills, hle⟩ := padZeros_fills b
  omega

theorem byteOf_extractLsb' (l : Long) {lo j : Nat} (hj : j < 4) :
    byteOf (l.extractLsb' lo 32) j = l.extractLsb' (lo + 8 * j) 8 := by
  ext i hi
  have hlt : 8 * j + i < 32 := by omega
  simp [byteOf, hlt, Nat.add_assoc]

theorem le64_eq_bytes (l : Long) : le64 l =
    [l.extractLsb' 0 8, l.extractLsb' 8 8, l.extractLsb' 16 8, l.extractLsb' 24 8,
     l.extractLsb' 32 8, l.extractLsb' 40 8, l.extractLsb' 48 8, l.extractLsb' 56 8] := by
  simp [le64, le32, byteOf_extractLsb']

theorem counted_of_mem_paddingEntries {bs : List Byte} {q : QEntry} (h : q ∈ paddingEntries bs) :
    q.counted = false := by
  obtain ⟨b, -, rfl⟩ := List.mem_map.1 h
  rfl

/-- Settles O20: the padding fills its block with fewer than 64 zeros, which fixes the zero count. -/
theorem paddingSequence : Obligations.PaddingSequence := by
  unfold Obligations.PaddingSequence
  refine ⟨fun b _ => ?_, rfl, rfl,
    fun z l => ⟨by rw [padBytes, le64_eq_bytes], padBytes_length z l, fun q => counted_of_mem_paddingEntries⟩⟩
  obtain ⟨hfills, hle⟩ := padZeros_fills b
  exact ⟨hle, by omega, fun z => padZeros_le⟩

/-! ### The blocks of a padded message (R156) -/

/-- `n` bytes and their padding end at the first block's end that leaves room for 9 bytes more. -/
theorem add_padding_eq_blocks (n : Nat) : n + (9 + padZeros n) = 64 * ((n + 8) / 64 + 1) := by
  obtain ⟨hfills, hle⟩ := padZeros_fills n
  omega

theorem padded_length (m : List Byte) : (padded m).length = m.length + (9 + padZeros m.length) := by
  rw [padded, List.length_append, padBytes_length]

/-- From rest, FINAL causes as many blocks as the bytes of the block in progress would need as a message. -/
theorem Engine.finish_blocksLeft {e : Engine} (h : e.busy = false) : e.finish.blocksLeft = (e.bcnt + 8) / 64 + 1 := by
  obtain ⟨hs, hq, -⟩ := (Engine.busy_eq_false_iff e).1 h
  have hlen : e.finish.queue.length = 9 + padZeros e.bcnt := by simp [hq, paddingEntries, padBytes_length]
  rw [Engine.blocksLeft_of_sidle (e := e.finish) hs, Engine.finish_bcnt, hlen, add_padding_eq_blocks,
    Nat.mul_div_cancel_left _ (by decide)]

/-- Settles O22: a message and its padding are `(n + 8) / 64 + 1` blocks, and so is the last part of one after FINAL. -/
theorem blockCount : Obligations.BlockCount := by
  unfold Obligations.BlockCount
  refine ⟨fun m => ⟨by rw [padded_length, Nat.add_assoc], by rw [padded_length, add_padding_eq_blocks]⟩,
    fun e hb hle => ?_⟩
  rw [Engine.finish_blocksLeft hb]
  omega

/-! ### The length in the last block (R154) -/

/-- The block buffer `x` with the bytes `bs` at the places from byte `p` on (R137, R138). -/
def putBytes (x : Vector Word 16) (p : Nat) : List Byte → Vector Word 16
  | [] => x
  | b :: bs => putBytes (putByte x p b) (p + 1) bs

/-- `byteOf_putByte` for byte `j` of word `k`. -/
theorem byteOf_putByte_word (x : Vector Word 16) (p : Nat) (b : Byte) (k : Fin 16) {j : Nat} (hj : j < 4) :
    byteOf ((putByte x p b).get k) j = if 4 * k + j = p then b else byteOf (x.get k) j := by
  have hput := byteOf_putByte x p b ⟨4 * k + j, by omega⟩
  have hdiv : (4 * k.val + j) / 4 = k := by omega
  have hmod : (4 * k.val + j) % 4 = j := by omega
  simpa only [hdiv, hmod] using hput

/-- Byte `j` of word `k` is that of `bs` at its place, if `bs` reaches it. -/
theorem byteOf_putBytes (x : Vector Word 16) (p : Nat) (bs : List Byte) (k : Fin 16) {j : Nat} (hj : j < 4) :
    byteOf ((putBytes x p bs).get k) j =
      if p ≤ 4 * k + j then bs.getD (4 * k + j - p) (byteOf (x.get k) j) else byteOf (x.get k) j := by
  induction bs generalizing x p with
  | nil => simp [putBytes]
  | cons b bs ih =>
    rw [putBytes, ih, byteOf_putByte_word x p b k hj]
    obtain hlt | heq | hgt := Nat.lt_trichotomy (4 * k + j) p
    · rw [if_neg (by omega), if_neg (by omega), if_neg (by omega)]
    · rw [if_neg (by omega), if_pos heq, if_pos (by omega), heq, Nat.sub_self, List.getD_cons_zero]
    · have hsub : 4 * k + j - p = 4 * k + j - (p + 1) + 1 := by omega
      rw [if_pos (by omega), if_neg (by omega), if_pos (by omega), hsub, List.getD_cons_succ]

/-- Padding bytes that fill the block: one micro-step for each puts it in X and leaves LEN as it is (R139), and the
last one starts the block (R140). -/
theorem Engine.runFor_padding_to_block_end {e : Engine} {bs : List Byte} (hs : e.seq = .sidle)
    (hq : e.queue = paddingEntries bs) (hne : bs ≠ []) (hfill : e.bcnt + bs.length = 64) :
    e.runFor bs.length = { e with
      queue := [], x := putBytes e.x e.bcnt bs, bcnt := 64, save := e.cv, seq := .round 0 } := by
  induction bs generalizing e with
  | nil => exact absurd rfl hne
  | cons b bs ih =>
    rw [List.length_cons] at hfill
    cases bs with
    | nil =>
      have hlast : e.bcnt + 1 = 64 := hfill
      rw [List.length_singleton, Engine.runFor_succ (Engine.step_absorb_full hs hq hlast)]
      simp only [Engine.runFor, Engine.startBlock, Engine.takeByte, hlast]
      rfl
    | cons b' bs =>
      have hroom : e.bcnt + 1 ≠ 64 := by rw [List.length_cons] at hfill; omega
      rw [List.length_cons, Engine.runFor_succ (Engine.step_absorb hs hq hroom)]
      exact ih hs rfl (List.cons_ne_nil b' bs) (by rw [Engine.takeByte_bcnt]; omega)

theorem getD_le64_low (l : Long) {j : Nat} (hj : j < 4) (d : Byte) :
    (le64 l).getD j d = byteOf (l.extractLsb' 0 32) j := by
  interval_cases j <;> rfl

theorem getD_le64_high (l : Long) {j : Nat} (hj : j < 4) (d : Byte) :
    (le64 l).getD (4 + j) d = byteOf (l.extractLsb' 32 32) j := by
  interval_cases j <;> rfl

section putBytes_le64
variable (x : Vector Word 16) (l : Long)

theorem putBytes_le64_get_14 : (putBytes x 56 (le64 l)).get 14 = l.extractLsb' 0 32 := by
  refine word_ext fun j hj => ?_
  have hplace : 4 * (14 : Fin 16).val + j = 56 + j := rfl
  rw [byteOf_putBytes x 56 _ 14 hj, hplace, if_pos (by omega), Nat.add_sub_cancel_left, getD_le64_low l hj]

theorem putBytes_le64_get_15 : (putBytes x 56 (le64 l)).get 15 = l.extractLsb' 32 32 := by
  refine word_ext fun j hj => ?_
  have hplace : 4 * (15 : Fin 16).val + j = 56 + (4 + j) := Nat.add_assoc 56 4 j
  rw [byteOf_putBytes x 56 _ 15 hj, hplace, if_pos (by omega), Nat.add_sub_cancel_left, getD_le64_high l hj]

theorem putBytes_le64_get_of_lt {k : Fin 16} (hk : k.val < 14) : (putBytes x 56 (le64 l)).get k = x.get k :=
  word_ext fun j hj => by rw [byteOf_putBytes x 56 _ k hj, if_neg (by omega)]

end putBytes_le64

/-- Settles O21: the eight length bytes fill the block from byte 56 on, which is where X[14] begins. -/
theorem lengthGoesToTheLastTwoWords : Obligations.LengthGoesToTheLastTwoWords := by
  unfold Obligations.LengthGoesToTheLastTwoWords
  intro e l hs hb hq
  have hrun : e.runFor 8 = { e with
      queue := [], x := putBytes e.x 56 (le64 l), bcnt := 64, save := e.cv, seq := .round 0 } := by
    rw [← hb]
    exact Engine.runFor_padding_to_block_end hs hq (List.cons_ne_nil _ _) (by rw [hb]; rfl)
  rw [hrun]
  exact ⟨putBytes_le64_get_14 e.x l, putBytes_le64_get_15 e.x l, fun k => putBytes_le64_get_of_lt e.x l,
    rfl, rfl, rfl, rfl⟩

end Sys2Proof.Machine
end

section
/-! The compression (R172-R180): the round functions bit by bit, the tables of the operations, and what the micro-steps
of a block and the latch do. -/

namespace Sys2Proof.Machine

/-! ### The round functions (R172) -/

section roundFunctions
variable (x y z : Word) {k : Nat}

theorem getLsbD_fnF (hk : k < 32) :
    (fnF x y z).getLsbD k = if x.getLsbD k then y.getLsbD k else z.getLsbD k := by
  rw [fnF, BitVec.getLsbD_or, BitVec.getLsbD_and, BitVec.getLsbD_and, BitVec.getLsbD_not]
  cases x.getLsbD k <;> simp [hk]

theorem getLsbD_fnG (hk : k < 32) :
    (fnG x y z).getLsbD k = if z.getLsbD k then x.getLsbD k else y.getLsbD k := by
  rw [fnG, BitVec.getLsbD_or, BitVec.getLsbD_and, BitVec.getLsbD_and, BitVec.getLsbD_not]
  cases z.getLsbD k <;> simp [hk]

theorem getLsbD_fnH : (fnH x y z).getLsbD k = ((x.getLsbD k ^^ y.getLsbD k) ^^ z.getLsbD k) := by
  rw [fnH, BitVec.getLsbD_xor, BitVec.getLsbD_xor]

theorem getLsbD_fnI (hk : k < 32) : (fnI x y z).getLsbD k = (y.getLsbD k ^^ (x.getLsbD k || !z.getLsbD k)) := by
  rw [fnI, BitVec.getLsbD_xor, BitVec.getLsbD_or, BitVec.getLsbD_not, decide_eq_true hk, Bool.true_and]

end roundFunctions

section roundFn
variable {i : Fin 64}

theorem roundFn_of_first (h : i.val < 16) : roundFn i = fnF := by
  simp only [roundFn, show i.val / 16 = 0 by omega]

theorem roundFn_of_second (hlo : 16 ≤ i.val) (hhi : i.val < 32) : roundFn i = fnG := by
  simp only [roundFn, show i.val / 16 = 1 by omega]

theorem roundFn_of_third (hlo : 32 ≤ i.val) (hhi : i.val < 48) : roundFn i = fnH := by
  simp only [roundFn, show i.val / 16 = 2 by omega]

theorem roundFn_of_fourth (h : 48 ≤ i.val) : roundFn i = fnI := by
  simp only [roundFn, show i.val / 16 = 3 by omega]

end roundFn

/-- Settles O27: bit `k` of each function is a function of the bits `k`, and `roundFn` divides the index by 16. -/
theorem roundFunctions : Obligations.RoundFunctions := by
  unfold Obligations.RoundFunctions
  exact ⟨fun x y z k hk => ⟨getLsbD_fnF x y z hk, getLsbD_fnG x y z hk, getLsbD_fnH x y z, getLsbD_fnI x y z hk⟩,
    fun i => ⟨roundFn_of_first, roundFn_of_second, roundFn_of_third, roundFn_of_fourth⟩⟩

/-! ### The tables (R174, R175) -/

/-- The tables, entry by entry. -/
theorem romS_romK_values (i : Fin 64) :
    4 ≤ romS i ∧ romS i ≤ 23 ∧
    (i.val / 16 = 0 → romS i = [7, 12, 17, 22].getD (i % 4) 0 ∧ (romK i).val = i) ∧
    (i.val / 16 = 1 → romS i = [5, 9, 14, 20].getD (i % 4) 0 ∧ (romK i).val = (5 * i + 1) % 16) ∧
    (i.val / 16 = 2 → romS i = [4, 11, 16, 23].getD (i % 4) 0 ∧ (romK i).val = (3 * i + 5) % 16) ∧
    (i.val / 16 = 3 → romS i = [6, 10, 15, 21].getD (i % 4) 0 ∧ (romK i).val = (7 * i) % 16) := by
  revert i
  decide

/-- In one round no two operations use the same word: 5, 3 and 7 are invertible modulo 16. -/
theorem romK_injective_in_round {i j : Fin 64} (hround : i.val / 16 = j.val / 16) (h : romK i = romK j) : i = j := by
  obtain ⟨-, -, hi0, hi1, hi2, hi3⟩ := romS_romK_values i
  obtain ⟨-, -, hj0, hj1, hj2, hj3⟩ := romS_romK_values j
  have hval : (romK i).val = (romK j).val := by rw [h]
  apply Fin.ext
  obtain hr | hr | hr | hr : i.val / 16 = 0 ∨ i.val / 16 = 1 ∨ i.val / 16 = 2 ∨ i.val / 16 = 3 := by omega
  · have := (hi0 hr).2; have := (hj0 (hround ▸ hr)).2; omega
  · have := (hi1 hr).2; have := (hj1 (hround ▸ hr)).2; omega
  · have := (hi2 hr).2; have := (hj2 (hround ▸ hr)).2; omega
  · have := (hi3 hr).2; have := (hj3 (hround ▸ hr)).2; omega

/-- Every round uses every word, since its sixteen operations use different ones. -/
theorem romK_surjective_in_round (r : Fin 4) (k : Fin 16) : ∃ i : Fin 64, i.val / 16 = r.val ∧ romK i = k := by
  have hdiv : ∀ j : Fin 16, (16 * r.val + j.val) / 16 = r.val := by omega
  have hinj : Function.Injective fun j : Fin 16 => romK ⟨16 * r + j, by omega⟩ := fun j j' h => by
    have hij := congrArg Fin.val (romK_injective_in_round ((hdiv j).trans (hdiv j').symm) h)
    simp only at hij
    omega
  obtain ⟨j, hj⟩ := Finite.surjective_of_injective hinj k
  exact ⟨_, hdiv j, hj⟩

/-- Settles O29: the tables are finite, and the word indices of a round are pairwise different and exhaust the block. -/
theorem shiftAndWordTables : Obligations.ShiftAndWordTables := by
  unfold Obligations.ShiftAndWordTables
  refine ⟨romS_romK_values, fun r k => ?_⟩
  obtain ⟨i, hr, hk⟩ := romK_surjective_in_round r k
  exact ⟨i, hr, hk, fun j hjr hjk => romK_injective_in_round (hjr.trans hr.symm) (hjk.trans hk.symm)⟩

/-! ### The micro-steps of a block (R177-R180) -/

/-- Settles O26: ROUND(i) enables the operation i, and `nextSeq` is what follows it. -/
theorem roundOperation : Obligations.RoundOperation := by
  unfold Obligations.RoundOperation
  intro e i hs
  refine ⟨nextSeq i, fun hlt => ⟨_, rfl, nextSeq_of_lt hlt⟩, fun hlast => ?_, Engine.step_round hs⟩
  obtain ⟨j, hj, -⟩ | ⟨-, hff⟩ := nextSeq_cases i
  · omega
  · exact hff

/-- Settles O31: `roundOp_four` is stated for every group. -/
theorem fourOperationsAreAStandardGroup : Obligations.FourOperationsAreAStandardGroup := by
  unfold Obligations.FourOperationsAreAStandardGroup
  exact roundOp_four

/-- Settles O32: sixteen groups of operations and the feed-forward. -/
theorem blockIsCompressed : Obligations.BlockIsCompressed := by
  unfold Obligations.BlockIsCompressed
  exact fun e => Engine.runFor_block

/-- Settles O33: FF enables the feed-forward; the latch comes with `seq` and Q at rest and clears `fin`. -/
theorem feedForwardAndLatch : Obligations.FeedForwardAndLatch := by
  unfold Obligations.FeedForwardAndLatch
  refine fun e => ⟨Engine.step_ff, fun hs hq hf => ⟨e.latch, Engine.step_latch hs hq hf, rfl, ?_⟩⟩
  exact (Engine.busy_eq_false_iff _).2 ⟨hs, hq, rfl⟩

end Sys2Proof.Machine
end

section
/-! The constants T (R173) as sines: the point of the unit circle at 1 radian is approximated by a Gaussian rational,
whose powers approximate the points at 1, 2, ..., 64 radians. The integers left to compare are checked by
computation. -/

namespace Sys2Proof.Machine

/-! ### An approximation of the point at 1 radian -/

/-- 16! times the sum of the first 17 terms of the exponential series at the imaginary unit. -/
def expINumerator : GaussianInt := ⟨11304631621681, 17605920611984⟩

/-- The point of the unit circle at 1 radian, but for less than 2^-48. -/
noncomputable def expIApprox : ℂ := (expINumerator : ℂ) / (Nat.factorial 16 : ℂ)

theorem expIApprox_eq_sum : expIApprox = ∑ m ∈ Finset.range 17, Complex.I ^ m / (m.factorial : ℂ) := by
  apply Complex.ext <;>
  · simp [expIApprox, expINumerator, Finset.sum_range_succ, Nat.factorial, GaussianInt.toComplex_def', pow_succ]
    norm_num

theorem norm_expIApprox_sub_le : ‖expIApprox - Complex.exp Complex.I‖ ≤ 1 / 2 ^ 48 := by
  rw [norm_sub_rev, expIApprox_eq_sum]
  refine (Complex.exp_bound (by simp) (by decide)).trans ?_
  norm_num [Nat.factorial]

/-- The approximation lies inside the unit circle, so its powers do. -/
theorem norm_expIApprox_le_one : ‖expIApprox‖ ≤ 1 := by
  rw [expIApprox, norm_div, Complex.norm_natCast, div_le_one (by positivity)]
  refine le_of_sq_le_sq ?_ (by positivity)
  rw [Complex.sq_norm, ← GaussianInt.intCast_real_norm]
  exact_mod_cast (show expINumerator.norm ≤ (Nat.factorial 16 : Int) ^ 2 by decide +kernel)

/-! ### The sines of whole numbers -/

/-- Powers of two complex numbers of the closed unit disc differ by at most `n` times what the numbers differ by. -/
theorem norm_pow_sub_pow_le {a b : ℂ} (ha : ‖a‖ ≤ 1) (hb : ‖b‖ ≤ 1) (n : Nat) : ‖a ^ n - b ^ n‖ ≤ n * ‖a - b‖ := by
  rw [← (Commute.all a b).mul_geom_sum₂, norm_mul, mul_comm]
  refine mul_le_mul_of_nonneg_right ?_ (norm_nonneg _)
  have hterm : ∀ k ∈ Finset.range n, ‖a ^ k * b ^ (n - 1 - k)‖ ≤ 1 := fun k _ => by
    rw [norm_mul, norm_pow, norm_pow]
    exact mul_le_one₀ (pow_le_one₀ (norm_nonneg a) ha) (by positivity) (pow_le_one₀ (norm_nonneg b) hb)
  simpa using norm_sum_le_of_le _ hterm

theorem exp_I_pow_im (n : Nat) : (Complex.exp Complex.I ^ n).im = Real.sin n := by
  rw [← Complex.exp_nat_mul, ← Complex.ofReal_natCast, Complex.exp_ofReal_mul_I_im]

/-- The numerator of the approximation of `|sin n|` over `(16!)^n`. -/
def sineNumerator (n : Nat) : Nat := (expINumerator ^ n).im.natAbs

/-- The approximation of `|sin n|`. -/
noncomputable def sineApprox (n : Nat) : ℝ := sineNumerator n / (Nat.factorial 16 : ℝ) ^ n

theorem abs_expIApprox_pow_im (n : Nat) : |(expIApprox ^ n).im| = sineApprox n := by
  rw [expIApprox, div_pow, ← map_pow, ← Nat.cast_pow, Complex.div_natCast_im, ← GaussianInt.intCast_im, abs_div,
    Nat.abs_cast, sineApprox, sineNumerator, Nat.cast_natAbs, Int.cast_abs, Nat.cast_pow]

/-- Each of the `n` factors brings in the error of one approximation. -/
theorem abs_sineApprox_sub_le (n : Nat) : abs (sineApprox n - |Real.sin n|) ≤ n / 2 ^ 48 := by
  have hexp : ‖Complex.exp Complex.I‖ ≤ 1 := by simp [Complex.norm_exp]
  rw [← abs_expIApprox_pow_im, ← exp_I_pow_im]
  calc abs (|(expIApprox ^ n).im| - |(Complex.exp Complex.I ^ n).im|)
    _ ≤ |(expIApprox ^ n).im - (Complex.exp Complex.I ^ n).im| := abs_abs_sub_abs_le ..
    _ ≤ ‖expIApprox ^ n - Complex.exp Complex.I ^ n‖ := by rw [← Complex.sub_im]; exact Complex.abs_im_le_norm _
    _ ≤ n * ‖expIApprox - Complex.exp Complex.I‖ := norm_pow_sub_pow_le norm_expIApprox_le_one hexp n
    _ ≤ n * (1 / 2 ^ 48) := by gcongr; exact norm_expIApprox_sub_le
    _ = n / 2 ^ 48 := mul_one_div ..

/-! ### The constants -/

/-- `2^32` times the approximation lies between T[n - 1] and T[n - 1] + 1, at least `n / 2^16` away from both (all
multiplied by `2^16 (16!)^n`). -/
theorem romT_bounds_numerator (i : Fin 64) :
    ((romT i).toNat * 2 ^ 16 + (i + 1)) * Nat.factorial 16 ^ (i.val + 1) ≤ 2 ^ 48 * sineNumerator (i + 1) ∧
    2 ^ 48 * sineNumerator (i + 1) <
      (((romT i).toNat + 1) * 2 ^ 16 - (i + 1)) * Nat.factorial 16 ^ (i.val + 1) := by
  revert i
  decide +kernel

theorem romT_bounds (i : Fin 64) :
    ((romT i).toNat : ℝ) * 2 ^ 16 + (i.val + 1 : Nat) ≤ 2 ^ 48 * sineApprox (i + 1) ∧
    2 ^ 48 * sineApprox (i + 1) + (i.val + 1 : Nat) < ((romT i).toNat + 1 : ℝ) * 2 ^ 16 := by
  have hpos : (0 : ℝ) < (Nat.factorial 16 : ℝ) ^ (i.val + 1) := by positivity
  have hroom : i.val + 1 ≤ ((romT i).toNat + 1) * 2 ^ 16 := by omega
  obtain ⟨hlo, hhi⟩ := romT_bounds_numerator i
  rw [sineApprox, ← mul_div_assoc, ← lt_sub_iff_add_lt, le_div_iff₀ hpos, div_lt_iff₀ hpos]
  refine ⟨by exact_mod_cast hlo, ?_⟩
  rify [hroom] at hhi
  exact_mod_cast hhi

/-- Settles O30: the approximation of the sine is nearer to the sine than to either bound. -/
theorem roundConstantsAreSines : Obligations.RoundConstantsAreSines := by
  unfold Obligations.RoundConstantsAreSines
  intro i
  obtain ⟨hlo, hhi⟩ := romT_bounds i
  obtain ⟨hbelow, habove⟩ := abs_le.1 (abs_sineApprox_sub_le (i + 1))
  rw [eq_comm, Int.floor_eq_iff, Int.cast_natCast, ← Nat.cast_succ]
  constructor <;> linarith

end Sys2Proof.Machine
end

section
/-! The order of the engine's micro-steps and their number (R190-R193): what a state enables, who makes a quiescent
engine busy, and how many micro-steps an accepted command takes. -/

namespace Sys2Proof.Machine

/-! ### What a state enables (R190) -/

theorem Engine.enabled_of_sidle {e : Engine} (hs : e.seq = .sidle) :
    e.enabled = if e.queue ≠ [] then some .absorb else if e.fin then some .latch else none := by
  simp only [Engine.enabled, hs]

/-- The engine has a step exactly while it is busy. -/
theorem Engine.step_isSome (e : Engine) : e.step.isSome = e.busy := by
  cases hb : e.busy with
  | false => rw [Engine.step_quiescent hb, Option.isSome_none]
  | true =>
    obtain ⟨e', hstep⟩ := Engine.exists_step_of_busy hb
    rw [hstep, Option.isSome_some]

/-! ### Who makes a quiescent engine busy (R191) -/

theorem Engine.RecordUpdate.busy_eq {e e' : Engine} (h : e.RecordUpdate e') : e'.busy = e.busy := by
  rw [h.eq]; exact Engine.busy_congr rfl rfl rfl

/-- NOP and INIT leave the engine as busy as it was. -/
theorem Engine.execute_busy_of_any_phase {i : Instr} (h : needsActive i = false) (e : Engine) :
    (e.execute i).busy = e.busy := by
  cases i with
  | nop => rfl
  | init => exact e.startContext_busy
  | feedcu | feedb | final => cases h

theorem needsActive_iff {i : Instr} :
    needsActive i = true ↔ (∃ u, i = .feedcu u) ∨ (∃ b, i = .feedb b) ∨ i = .final := by
  cases i <;> simp [needsActive]

/-- The turn of the host makes a quiescent engine busy only by the CMD write of a command that is accepted. -/
theorem hostTurn_makes_busy {s t : State} (h : hostTurn s = .next t) (hb : s.eng.busy = false)
    (hb' : t.eng.busy = true) : ∃ i rest, s.pending = .write 0x00 4 (encode i) :: rest ∧
      rejection i s.eng = none ∧ (s.eng.execute i).busy = true := by
  have hkept : ¬ s.eng.RecordUpdate t.eng := fun hu => by rw [hu.busy_eq, hb] at hb'; cases hb'
  obtain rfl | ⟨off, width, dst, rest, -, rfl⟩ | ⟨rest, -, rfl⟩ |
      ⟨off, v, rest, hp, ha, hw, ⟨hcmd, h⟩ | ⟨-, rfl⟩ | ⟨-, -, rfl⟩⟩ := hostTurn_cases h
  · exact absurd (.kept rfl) hkept
  · exact absurd (.kept (readOp_eng ..)) hkept
  · exact absurd (.kept (pollOp_eng ..)) hkept
  · obtain ⟨e', rfl, ⟨c, w, he⟩ | ⟨i, hd, hacc, rfl⟩⟩ := submit_cases h
    · exact absurd (.rejected c w he) hkept
    · obtain rfl : off = 0x00 := by rw [← offset_regOf ha hw, hcmd]; rfl
      obtain rfl := decode_eq_command_iff.1 hd
      exact ⟨i, rest, hp, hacc, hb'⟩
  · exact absurd (s.eng.recordUpdate_writeErrinfo v) hkept
  · exact absurd (.kept rfl) hkept

/-- So does every step: a quiescent engine has no micro-step, and reset leaves it quiescent. -/
theorem step_makes_busy {s t : State} (h : step s = .next t) (hb : s.eng.busy = false) (hb' : t.eng.busy = true) :
    ∃ i rest ts, s.pending = .write 0x00 4 (encode i) :: rest ∧ s.hostMoves ts ∧
      rejection i s.eng = none ∧ (s.eng.execute i).busy = true := by
  obtain ⟨ts, ⟨hm, h⟩ | h | ⟨-, rfl⟩⟩ := step_cases h
  · obtain ⟨i, rest, hp, hacc, hbusy⟩ := hostTurn_makes_busy h hb hb'
    exact ⟨i, rest, ts, hp, hm, hacc, hbusy⟩
  · obtain ⟨-, rfl⟩ | ⟨e', hstep, -⟩ := engineTurn_cases h
    · rw [hb] at hb'; cases hb'
    · have hquiet : s.eng.step = none := Engine.step_quiescent hb
      rw [hquiet] at hstep; cases hstep
  · cases hb'

/-- Settles O23: the order of R190 is that of `Engine.enabled`; the command that makes the engine busy is none that is
accepted in any phase. -/
theorem engineStepPriority : Obligations.EngineStepPriority := by
  unfold Obligations.EngineStepPriority
  refine ⟨fun e => ⟨fun i hs => ?_, fun hs => ?_, fun hs hq => ?_, fun hs hq hf => ?_, fun hs hq hf => ?_,
    e.step_isSome⟩, fun s t hstep hb hb' => ?_⟩
  · simp only [Engine.enabled, hs]
  · simp only [Engine.enabled, hs]
  · rw [Engine.enabled_of_sidle hs, if_pos hq]
  · rw [Engine.enabled_of_sidle hs, if_neg (not_not.2 hq), if_pos hf]
  · rw [Engine.enabled_of_sidle hs, if_neg (not_not.2 hq), if_neg (ne_true_of_eq_false hf)]
  · obtain ⟨i, rest, ts, hp, hm, hacc, hbusy⟩ := step_makes_busy hstep hb hb'
    have hneeds : needsActive i = true := by
      by_contra hn
      rw [Engine.execute_busy_of_any_phase (eq_false_of_ne_true hn), hb] at hbusy
      cases hbusy
    exact ⟨i, rest, ts, hp, hm, active_of_rejection_none hacc hneeds, needsActive_iff.1 hneeds⟩

/-! ### Coming to rest (R192) -/

theorem Engine.takesSteps_zero {e : Engine} (h : e.busy = false) : e.takesSteps 0 :=
  ⟨h, fun k hk => absurd hk k.not_lt_zero⟩

theorem Engine.takesSteps_succ {e e' : Engine} {n : Nat} (hstep : e.step = some e') (h : e'.takesSteps n) :
    e.takesSteps (n + 1) := by
  obtain ⟨hrest, hbusy⟩ := h
  refine ⟨by rwa [Engine.runFor_succ hstep], fun k hk => ?_⟩
  cases k with
  | zero => exact Engine.busy_of_step hstep
  | succ k => rw [Engine.runFor_succ hstep]; exact hbusy k (Nat.lt_of_succ_lt_succ hk)

theorem Engine.Inv.bcnt_le {e : Engine} (h : e.Inv) (hs : e.seq = .sidle) : e.bcnt ≤ 63 := by
  obtain ⟨⟨-, hfilling, -⟩, -⟩ := h
  exact hfilling hs

/-- A quiescent engine has a block in progress at most, so no micro-step is left (I2). -/
theorem Engine.Inv.remaining_eq_zero {e : Engine} (h : e.Inv) (hb : e.busy = false) : e.remaining = 0 := by
  obtain ⟨hs, hq, hf⟩ := (Engine.busy_eq_false_iff e).1 hb
  have hle := h.bcnt_le hs
  rw [Engine.remaining, Engine.blocksLeft_of_sidle hs, hs, hq, hf]
  simp only [Seq.left, List.length_nil, Bool.toNat_false]
  omega

theorem Engine.Inv.takesSteps_remaining {e : Engine} (h : e.Inv) : e.takesSteps e.remaining := by
  induction e using Engine.micro_induction with
  | rest e hb => rw [h.remaining_eq_zero hb]; exact Engine.takesSteps_zero hb
  | next e e' hstep ih =>
    rw [Engine.remaining_of_step hstep]
    exact Engine.takesSteps_succ hstep (ih (h.microStep hstep))

/-- Settles O34: the count `remaining` falls by one with each micro-step. -/
theorem engineComesToRest : Obligations.EngineComesToRest := by
  unfold Obligations.EngineComesToRest
  exact ⟨fun e => ⟨e.remaining, e.settle_busy⟩, fun e => Engine.Inv.takesSteps_remaining⟩

/-! ### The micro-steps of each command (R193) -/

section remaining
variable {e : Engine}

/-- One Absorb per byte queued, and 65 micro-steps for every block the bytes fill. -/
theorem Engine.remaining_enqueue (hb : e.busy = false) (qs : List QEntry) :
    (e.enqueue qs).remaining = qs.length + 65 * ((e.bcnt + qs.length) / 64) := by
  obtain ⟨hs, hq, hf⟩ := (Engine.busy_eq_false_iff e).1 hb
  rw [Engine.remaining, Engine.blocksLeft_of_sidle (e := e.enqueue qs) hs]
  simp [hs, hq, hf, Seq.left]

/-- The same for the padding, and the latch. -/
theorem Engine.remaining_finish (hb : e.busy = false) :
    e.finish.remaining = 9 + padZeros e.bcnt + 65 * ((e.bcnt + 8) / 64 + 1) + 1 := by
  obtain ⟨hs, hq, -⟩ := (Engine.busy_eq_false_iff e).1 hb
  rw [Engine.remaining, Engine.finish_blocksLeft hb]
  simp [hs, hq, Seq.left, paddingEntries, padBytes_length]

end remaining

/-- Settles O35: an accepted command keeps the invariant, so its micro-steps are those that `remaining` counts. -/
theorem stepCounts : Obligations.StepCounts := by
  unfold Obligations.StepCounts
  intro e hinv hb
  refine ⟨Engine.takesSteps_zero hb, Engine.takesSteps_zero (e.startContext_busy.trans hb), fun hp => ?_⟩
  have hle : e.bcnt ≤ 63 := hinv.bcnt_le ((Engine.busy_eq_false_iff e).1 hb).1
  have hcount : ∀ {i n}, (e.execute i).remaining = n → (e.execute i).takesSteps n := fun hn =>
    hn ▸ (hinv.execute (rejection_of_active hb hp _)).takesSteps_remaining
  have hfinal : (e.execute .final).remaining = 9 + padZeros e.bcnt + 65 * ((e.bcnt + 8) / 64 + 1) + 1 :=
    Engine.remaining_finish hb
  refine ⟨fun b => hcount ?_, fun u => hcount ?_, hcount ?_, fun hz => hcount ?_⟩
  · refine (Engine.remaining_enqueue hb _).trans ?_
    simp only [countedEntries, List.map_singleton, List.length_singleton]
    split <;> omega
  · obtain ⟨hmin, hmax⟩ := utf8Bytes_length u
    refine (Engine.remaining_enqueue hb _).trans ?_
    rw [countedEntries, List.length_map]
    split <;> omega
  · rw [hfinal]
    split <;> omega
  · rw [hfinal, hz]; rfl

end Sys2Proof.Machine
end

section
/-! The digest (R212-R216): where a byte of the digest and a character of its text stand, and what the window shows of
the digest in phase DONE. -/

namespace Sys2Proof.Machine

/-! ### The window in phase DONE (R216) -/

/-- Only in phase ACTIVE is anything in progress (I3). -/
theorem Engine.Inv.not_busy_of_done {e : Engine} (h : e.Inv) (hp : e.phase = .done) : e.busy = false := by
  by_contra hb
  have hactive := h.active_of_busy (eq_true_of_ne_false hb)
  rw [hp] at hactive
  cases hactive

/-- A..D hold the digest until the next INIT (I6). -/
theorem Engine.Inv.cv_eq_digest_of_done {e : Engine} (h : e.Inv) (hp : e.phase = .done) : e.cv = e.digest := by
  obtain ⟨⟨-, -, -, -, -, hdone, -⟩, -⟩ := h
  exact (hdone hp).1

/-- Settles O52: the phase excludes a busy engine (I3), and A..D are the digest (I6). -/
theorem cvReadsTheDigestWhenDone : Obligations.CvReadsTheDigestWhenDone := by
  unfold Obligations.CvReadsTheDigestWhenDone
  intro e hinv hp
  have hb := hinv.not_busy_of_done hp
  have hcv := hinv.cv_eq_digest_of_done hp
  exact ⟨hb, congrArg Quad.a hcv, congrArg Quad.b hcv, congrArg Quad.c hcv, congrArg Quad.d hcv,
    Engine.readValue_of_not_busy hb⟩

/-! ### The bytes of a digest (R212) -/

/-- In a list of pieces of `w` entries each, entry `k` of piece `n` stands at `w * n + k`. -/
theorem getElem?_flatMap_of_length_eq {α β : Type} {f : α → List β} {w : Nat} (hf : ∀ a, (f a).length = w)
    (l : List α) (n : Nat) {k : Nat} (hk : k < w) : (l.flatMap f)[w * n + k]? = l[n]?.bind (fun a => (f a)[k]?) := by
  induction l generalizing n with
  | nil => rfl
  | cons a l ih =>
    rw [List.flatMap_cons]
    cases n with
    | zero => rw [Nat.mul_zero, Nat.zero_add, List.getElem?_append_left (hk.trans_eq (hf a).symm)]; rfl
    | succ n =>
      have hplace : w * (n + 1) + k = (f a).length + (w * n + k) := by rw [hf, Nat.mul_succ]; omega
      rw [hplace, List.getElem?_append_right (Nat.le_add_right ..), Nat.add_sub_cancel_left, ih n]; rfl

theorem le32_length (w : Word) : (le32 w).length = 4 := rfl

theorem getElem?_le32 (w : Word) (k : Fin 4) : (le32 w)[k.val]? = some (byteOf w k) := by fin_cases k <;> rfl

theorem serialise_eq_flatMap (q : Quad) : serialise q = [q.a, q.b, q.c, q.d].flatMap le32 := by
  simp [serialise]

theorem getElem?_serialise (q : Quad) (j k : Fin 4) :
    (serialise q)[4 * j.val + k.val]? = some (byteOf ([q.a, q.b, q.c, q.d].getD j 0) k) := by
  have hword : [q.a, q.b, q.c, q.d][j.val]? = some ([q.a, q.b, q.c, q.d].getD j 0) := by fin_cases j <;> rfl
  rw [serialise_eq_flatMap, getElem?_flatMap_of_length_eq le32_length _ _ k.isLt, hword]
  exact getElem?_le32 _ k

/-! ### The characters of a digest (R213) -/

theorem hexByte_length (b : Byte) : (hexByte b).length = 2 := rfl

theorem getElem?_hexRender (q : Quad) {n : Nat} {b : Byte} (h : (serialise q)[n]? = some b) {k : Nat} (hk : k < 2) :
    (hexRender q)[2 * n + k]? = (hexByte b)[k]? := by
  rw [hexRender, getElem?_flatMap_of_length_eq hexByte_length _ _ hk, h]; rfl

theorem getElem?_hexAlphabet (n : BitVec 4) : hexAlphabet[n.toNat]? = some (hexDigit n) := by
  revert n
  decide

theorem high_nibble_toNat (b : Byte) : (b.extractLsb' 4 4).toNat = b.toNat / 16 := by
  rw [BitVec.extractLsb'_toNat, Nat.shiftRight_eq_div_pow]
  omega

theorem low_nibble_toNat (b : Byte) : (b.extractLsb' 0 4).toNat = b.toNat % 16 := by
  rw [BitVec.extractLsb'_toNat, Nat.shiftRight_zero]

/-- Settles O58: words are cut into four bytes and bytes into two characters, each piece of one length. -/
theorem digestSerialisation : Obligations.DigestSerialisation := by
  unfold Obligations.DigestSerialisation
  intro q
  refine ⟨getElem?_serialise q, rfl, hexRender_length q, fun c => mem_hexAlphabet_of_mem_hexRender, fun n b hb => ?_⟩
  rw [← high_nibble_toNat, ← low_nibble_toNat, getElem?_hexAlphabet, getElem?_hexAlphabet]
  exact ⟨getElem?_hexRender q hb Nat.two_pos, getElem?_hexRender q hb Nat.one_lt_two⟩

end Sys2Proof.Machine
end

section
/-! Rejections and the error record (R231-R238), and instances (R245): a rejection writes the record and nothing else,
the record holds nothing up, only the ERRINFO write and reset clear it, and the instances of a system share nothing. -/

namespace Sys2Proof.Machine

/-! ### A word that `Check` rejects (R231-R235, R238) -/

theorem check_of_busy {e : Engine} (h : e.busy = true) (w : Word) : check e w = .reject .busy := by
  rw [check, if_pos h]

/-- Submitting a word that `Check` rejects records the rejection, with the code of `Check` and the whole word. -/
theorem submit_of_check_reject {w : Word} {s : State} {c : InvalidArgument} (h : check s.eng w = .reject c) :
    submit w s = .next (s.rejected c w) := by
  rw [submitIsCheckThenExecute w s, Engine.submit, h, State.rejected]

/-- Settles O8: what is recorded depends on whether a rejection is recorded already. -/
theorem rejectionsArePrecise : Obligations.RejectionsArePrecise := by
  unfold Obligations.RejectionsArePrecise
  refine ⟨⟨rfl, rfl, rfl, rfl⟩, fun w s c hrej => ?_⟩
  rw [submit_of_check_reject hrej, State.rejected]
  constructor
  · intro hv; rw [Engine.recordError_of_clear hv]
  · intro hv; rw [Engine.recordError_of_valid hv]

/-- The command of `w` needs phase ACTIVE, and the engine is at rest outside it. -/
theorem submit_of_not_active {w : Word} {i : Instr} {s : State} (hd : decode w = .command i)
    (hn : needsActive i = true) (hb : s.eng.busy = false) (hp : s.eng.phase ≠ .active) :
    submit w s = .next (s.rejected .phase w) :=
  submit_of_check_reject (by rw [check_of_command hd, rejection_of_phase hb hn hp, Option.elim_some])

/-- An engine at rest executes a command in phase ACTIVE, and NOP and INIT in every phase. -/
theorem rejection_eq_none_at_rest {i : Instr} {e : Engine} (hb : e.busy = false)
    (h : e.phase = .active ∨ i = .nop ∨ i = .init) : rejection i e = none := by
  obtain hp | rfl | rfl := h
  · exact rejection_of_active hb hp i
  · exact rejection_of_any_phase hb rfl
  · exact rejection_of_any_phase hb rfl

/-- Settles O9: BUSY is checked before the word is decoded, the decoder's code comes next, and the phase is checked for
a command only. -/
theorem rejectionPriority : Obligations.RejectionPriority := by
  unfold Obligations.RejectionPriority
  refine ⟨fun w s => ⟨fun hb => ?_, fun hb hd => ?_, fun hb hd => ?_, fun hb hp hi => ?_, fun hb i hd hacc => ?_⟩,
    fun s hb => ?_, ?_⟩
  · exact submit_of_check_reject (check_of_busy hb w)
  · exact submit_of_reject_at_rest hd hb
  · exact submit_of_reject_at_rest hd hb
  · obtain ⟨u, hd⟩ | ⟨b, hd⟩ | hd := hi
    · exact submit_of_not_active hd rfl hb hp
    · exact submit_of_not_active hd rfl hb hp
    · exact submit_of_not_active hd rfl hb hp
  · rw [submit_of_command hd, exec_of_accepted (rejection_eq_none_at_rest hb hacc)]
  · exact submit_of_reject_at_rest (by decide) hb
  · exact submit_of_not_active (i := .feedcu 0x0001#16) (by decide) rfl rfl nofun

/-! ### A recorded error blocks nothing (R236) -/

/-- An update of the error record is not seen once the record is cleared. -/
theorem Engine.RecordUpdate.clearErrors_eq {e e' : Engine} (h : e.RecordUpdate e') :
    e'.clearErrors = e.clearErrors := by
  rw [h.eq]; rfl

section clearErrors
variable (e : Engine) (i : Instr)

theorem Engine.clearErrors_clearErrors : e.clearErrors.clearErrors = e.clearErrors := rfl

/-- A command's pseudocode neither reads nor writes the error record. -/
theorem Engine.execute_clearErrors : e.clearErrors.execute i = (e.execute i).clearErrors := by
  cases i <;> rfl

theorem rejection_clearErrors : rejection i e.clearErrors = rejection i e := rfl

/-- Up to the error record, a submitted command does the same whether a rejection is recorded or not. -/
theorem Engine.issue_execute_clearErrors :
    (e.clearErrors.issue i (Engine.execute i)).clearErrors = (e.issue i (Engine.execute i)).clearErrors := by
  unfold Engine.issue
  rw [rejection_clearErrors]
  cases rejection i e with
  | some c =>
    calc (e.clearErrors.recordError c (encode i)).clearErrors
        = e.clearErrors.clearErrors := Engine.RecordUpdate.clearErrors_eq (.rejected c _ rfl)
      _ = e.clearErrors := e.clearErrors_clearErrors
      _ = (e.recordError c (encode i)).clearErrors := (Engine.RecordUpdate.clearErrors_eq (.rejected c _ rfl)).symm
  | none =>
    calc (e.clearErrors.execute i).clearErrors
        = (e.execute i).clearErrors.clearErrors := by rw [e.execute_clearErrors i]
      _ = (e.execute i).clearErrors := (e.execute i).clearErrors_clearErrors

end clearErrors

/-- Settles O10: neither the check nor a command's pseudocode looks at the record. -/
theorem errorsDoNotBlock : Obligations.ErrorsDoNotBlock := by
  unfold Obligations.ErrorsDoNotBlock
  intro i s
  exact ⟨_, _, exec_eq i s, exec_eq i _, (s.eng.issue_execute_clearErrors i).symm, rfl⟩

/-! ### What clears the error record (R237) -/

/-- `e'` still has the rejection recorded in `e`: its code and its word, and OVF if it was set. -/
structure Engine.KeepsRejection (e e' : Engine) : Prop where
  valid : e'.errValid = true
  code : e'.errCode = e.errCode
  cmd : e'.errCmd = e.errCmd
  ovf : e.errOvf = true → e'.errOvf = true

section keepsRejection
variable {e e' : Engine}

theorem Engine.KeepsRejection.of_errorRecord_eq (hv : e.errValid = true) (h : e'.errorRecord = e.errorRecord) :
    e.KeepsRejection e' := by
  simp only [Engine.errorRecord, Prod.mk.injEq] at h
  obtain ⟨hvalid, hovf, hcode, hcmd⟩ := h
  exact ⟨hvalid.trans hv, hcode, hcmd, hovf.trans⟩

/-- A further rejection sets OVF only (R234). -/
theorem Engine.KeepsRejection.recordError (hv : e.errValid = true) (c : InvalidArgument) (w : Word) :
    e.KeepsRejection (e.recordError c w) := by
  rw [Engine.recordError_of_valid hv]
  exact ⟨hv, rfl, rfl, fun _ => rfl⟩

theorem Engine.step_errorRecord (h : e.step = some e') : e'.errorRecord = e.errorRecord := by
  obtain ⟨hvalid, hovf, hcode, hcmd⟩ := Engine.step_errors h
  rw [Engine.errorRecord, hvalid, hovf, hcode, hcmd, Engine.errorRecord]

end keepsRejection

/-- The turn of the host keeps a recorded rejection, but for a write of ERRINFO with bit 0 set, which clears it. -/
theorem hostTurn_keeps_or_clears {s t : State} (h : hostTurn s = .next t) (hv : s.eng.errValid = true) :
    s.eng.KeepsRejection t.eng ∨
    (t.eng = s.eng.clearErrors ∧ ∃ v rest, s.pending = .write 0x08 4 v :: rest ∧ v.getLsbD 0 = true) := by
  have hkept : t.eng.errorRecord = s.eng.errorRecord → s.eng.KeepsRejection t.eng := .of_errorRecord_eq hv
  obtain rfl | ⟨off, width, dst, rest, -, rfl⟩ | ⟨rest, -, rfl⟩ |
      ⟨off, v, rest, hp, ha, hw, ⟨-, h⟩ | ⟨herr, rfl⟩ | ⟨-, -, rfl⟩⟩ := hostTurn_cases h
  · exact .inl (hkept rfl)
  · exact .inl (hkept (by rw [readOp_eng]))
  · exact .inl (hkept (by rw [pollOp_eng]))
  · obtain ⟨e', rfl, ⟨c, w, rfl⟩ | ⟨i, -, -, rfl⟩⟩ := submit_cases h
    · exact .inl (.recordError hv c w)
    · exact .inl (hkept (Engine.execute_errorRecord i s.eng))
  · obtain rfl : off = 0x08 := by rw [← offset_regOf ha hw, herr]; rfl
    cases hbit : v.getLsbD 0 with
    | true => exact .inr ⟨if_pos hbit, v, rest, hp, hbit⟩
    | false => exact .inl (hkept (congrArg Engine.errorRecord (if_neg (ne_true_of_eq_false hbit))))
  · exact .inl (hkept rfl)

/-- Settles O12: of all moves only reset and that write of the host do not keep the rejection. -/
theorem onlyErrinfoWriteAndResetClear : Obligations.OnlyErrinfoWriteAndResetClear := by
  unfold Obligations.OnlyErrinfoWriteAndResetClear
  intro s t hstep hv
  refine Or.imp_left (fun hk : s.eng.KeepsRejection t.eng => ⟨hk.valid, hk.code, hk.cmd, hk.ovf⟩) ?_
  obtain ⟨ts, ⟨hm, h⟩ | h | ⟨hts, rfl⟩⟩ := step_cases hstep
  · obtain hk | ⟨he, v, rest, hp, hbit⟩ := hostTurn_keeps_or_clears h hv
    · exact .inl hk
    · rw [he]
      exact .inr ⟨⟨rfl, rfl, rfl, rfl⟩, .inr ⟨v, rest, ts, hp, hm, hbit⟩⟩
  · obtain ⟨-, rfl⟩ | ⟨e', he, rfl⟩ := engineTurn_cases h
    · exact .inl (.of_errorRecord_eq hv rfl)
    · exact .inl (.of_errorRecord_eq hv (Engine.step_errorRecord he))
  · exact .inr ⟨⟨rfl, rfl, rfl, rfl⟩, .inl ⟨ts, hts⟩⟩

/-! ### Instances (R245) -/

/-- What a transition at place `k` of a system can do: nothing where no machine stands there, else the step of that
one. -/
theorem stepAt_cases {k : Nat} {sys sys' : System} (h : stepAt k sys = .next sys') :
    (sys[k]? = none ∧ sys' = sys) ∨
    (∃ s s', sys[k]? = some s ∧ step s = .next s' ∧ sys' = sys.set k s') := by
  unfold stepAt at h
  split at h
  · next hk => cases h; exact .inl ⟨hk, rfl⟩
  · next s hk =>
    split at h
    · next s' hs => cases h; exact .inr ⟨s, s', hk, hs, rfl⟩
    · cases h
    · cases h

/-- Settles O60: a machine's step replaces the entry at its own place of the list. -/
theorem instancesShareNothing : Obligations.InstancesShareNothing := by
  unfold Obligations.InstancesShareNothing
  intro k sys sys' h
  obtain ⟨hk, rfl⟩ | ⟨s, s', hk, hs, rfl⟩ := stepAt_cases h
  · refine ⟨rfl, fun j _ => rfl, fun s hsome => ?_⟩
    rw [hk] at hsome; cases hsome
  · obtain ⟨hlt, -⟩ := List.getElem?_eq_some_iff.1 hk
    refine ⟨List.length_set, fun j hj => List.getElem?_set_ne hj.symm, fun s₀ hsome => ?_⟩
    obtain rfl : s = s₀ := Option.some.inj (hk.symm.trans hsome)
    exact ⟨s', hs, List.getElem?_set_self hlt⟩

end Sys2Proof.Machine
end

section
/-! Latency (R272): the clocks until an engine is quiescent, in closed form. Every micro-step takes its own clocks from
`remainingClocks`, as it takes one from the count `remaining`, so the two notions of latency agree. -/

namespace Sys2Proof.Machine

/-! ### The clocks left, in closed form -/

/-- The clocks left of the block in compression: its operations i..63 and the feed-forward (R27, R272). -/
def Seq.clocksLeft (t : Config.Timing) : Seq → Nat
  | .sidle => 0
  | .round i => (64 - i.val) * t.tRound + t.tFf
  | .ff => t.tFf

/-- The clocks of the micro-steps that `Engine.remaining` counts: the rest of the current block, the queued bytes, the
blocks they fill, and the latch (R193, R272). -/
def Engine.remainingClocks (t : Config.Timing) (e : Engine) : Nat :=
  e.seq.clocksLeft t + e.queue.length * t.tAbsorb + e.blocksLeft * (64 * t.tRound + t.tFf) + e.fin.toNat * t.tLatch

section clocks
variable (t : Config.Timing) {e e' : Engine}

theorem Seq.clocksLeft_round (i : Fin 64) : (Seq.round i).clocksLeft t = t.tRound + (nextSeq i).clocksLeft t := by
  obtain ⟨j, hj, h⟩ | ⟨rfl, h⟩ := nextSeq_cases i
  · have hleft : 64 - i.val = 64 - j.val + 1 := by omega
    rw [h, Seq.clocksLeft, Seq.clocksLeft, hleft]
    ring
  · rw [h]
    simp [Seq.clocksLeft]

/-- A byte that leaves its block open fills no block: it goes from the queue into the count of the block. -/
theorem Engine.blocksLeft_takeByte {q : QEntry} {rest : List QEntry} (hs : e.seq = .sidle)
    (hq : e.queue = q :: rest) : (e.takeByte q rest).blocksLeft = e.blocksLeft := by
  rw [Engine.blocksLeft_of_sidle (e := e.takeByte q rest) hs, Engine.blocksLeft_of_sidle hs, hq, List.length_cons,
    Engine.takeByte_bcnt, Engine.takeByte_queue, Nat.add_right_comm, Nat.add_assoc]

/-- The byte that fills its block starts one of the blocks that were left. -/
theorem Engine.blocksLeft_of_block_full {q : QEntry} {rest : List QEntry} (hs : e.seq = .sidle)
    (hq : e.queue = q :: rest) (hb : e.bcnt + 1 = 64) :
    e.blocksLeft = (e.takeByte q rest).startBlock.blocksLeft + 1 := by
  rw [Engine.blocksLeft_of_sidle hs, Engine.blocksLeft_of_not_sidle (by simp), hq, List.length_cons,
    Engine.startBlock_queue, Engine.takeByte_queue]
  omega

/-- Each micro-step takes its own clocks from those that were left. -/
theorem Engine.remainingClocks_of_step (h : e.step = some e') :
    ∃ m, e.enabled = some m ∧ e.remainingClocks t = m.clocks t + e'.remainingClocks t := by
  obtain ⟨hround, hff, habsorb, hlatch, -⟩ := engineStepPriority.1 e
  obtain ⟨i, hs, rfl⟩ | ⟨hs, rfl⟩ | ⟨q, rest, hs, hq, -, rfl⟩ | ⟨q, rest, hs, hq, hb, rfl⟩ | ⟨hs, hq, hf, rfl⟩ :=
    Engine.step_cases h
  · refine ⟨_, hround i hs, ?_⟩
    have hnext : nextSeq i ≠ .sidle := (Seq.left_nextSeq i).2
    rw [Engine.remainingClocks, Engine.remainingClocks, Engine.blocksLeft_of_not_sidle (e := e) (by simp [hs]),
      Engine.blocksLeft_of_not_sidle hnext, hs, Seq.clocksLeft_round, MicroStep.clocks]
    simp only [Engine.round_seq, Engine.round_queue, Engine.round_fin]
    ring
  · refine ⟨_, hff hs, ?_⟩
    rw [Engine.remainingClocks, Engine.remainingClocks, Engine.blocksLeft_of_not_sidle (e := e) (by simp [hs]),
      Engine.blocksLeft_of_sidle (e := e.feedForward) rfl, hs]
    simp only [Engine.feedForward_seq, Engine.feedForward_queue, Engine.feedForward_fin, Engine.feedForward_bcnt,
      Seq.clocksLeft, MicroStep.clocks, Nat.zero_add, Nat.add_assoc]
  · refine ⟨_, habsorb hs (hq ▸ List.cons_ne_nil q rest), ?_⟩
    rw [Engine.remainingClocks, Engine.remainingClocks, Engine.blocksLeft_takeByte hs hq, hq, List.length_cons,
      MicroStep.clocks]
    simp only [Engine.takeByte_seq, Engine.takeByte_queue, Engine.takeByte_fin]
    ring
  · refine ⟨_, habsorb hs (hq ▸ List.cons_ne_nil q rest), ?_⟩
    rw [Engine.remainingClocks, Engine.remainingClocks, Engine.blocksLeft_of_block_full hs hq hb, hs, hq,
      List.length_cons, MicroStep.clocks]
    simp only [Engine.startBlock_seq, Engine.startBlock_queue, Engine.startBlock_fin, Engine.takeByte_queue,
      Engine.takeByte_fin, Seq.clocksLeft, Fin.val_zero, Nat.sub_zero]
    ring
  · refine ⟨_, hlatch hs hq hf, ?_⟩
    have hblocks : e.latch.blocksLeft = e.blocksLeft := rfl
    rw [Engine.remainingClocks, Engine.remainingClocks, hblocks, hf, MicroStep.clocks]
    simp only [Engine.latch_seq, Engine.latch_queue, Engine.latch_fin, Bool.toNat_true, Bool.toNat_false]
    ring

/-! ### The latency is the clocks left (R272) -/

theorem Engine.latency_of_step {m : MicroStep} (h : e.step = some e') (hm : e.enabled = some m) :
    e.latency t = m.clocks t + e'.latency t := by
  obtain rfl : m.run e = e' := by simpa [Engine.step, hm] using h
  rw [Engine.latency, Engine.remaining_of_step h, Engine.clocksFor, hm, Engine.latency]

theorem Engine.Inv.latency_of_not_busy (h : e.Inv) (hb : e.busy = false) : e.latency t = 0 := by
  rw [Engine.latency, h.remaining_eq_zero hb, Engine.clocksFor]

/-- A quiescent engine has a block in progress at most, so no clocks are left (I2). -/
theorem Engine.Inv.remainingClocks_of_not_busy (h : e.Inv) (hb : e.busy = false) : e.remainingClocks t = 0 := by
  obtain ⟨hs, hq, hf⟩ := (Engine.busy_eq_false_iff e).1 hb
  have hblocks : e.blocksLeft = 0 := by
    have hrest : e.remaining = 0 := h.remaining_eq_zero hb
    rw [Engine.remaining] at hrest
    omega
  rw [Engine.remainingClocks, hblocks, hs, hq, hf]
  simp [Seq.clocksLeft]

theorem Engine.Inv.latency_eq_remainingClocks (h : e.Inv) : e.latency t = e.remainingClocks t := by
  induction e using Engine.micro_induction with
  | rest e hb => rw [h.latency_of_not_busy t hb, h.remainingClocks_of_not_busy t hb]
  | next e e' hstep ih =>
    obtain ⟨m, hm, hclocks⟩ := Engine.remainingClocks_of_step t hstep
    rw [Engine.latency_of_step t hstep hm, ih (h.microStep hstep), hclocks]

/-- From rest, FINAL leaves the padding to absorb, the blocks it fills, and the latch. -/
theorem Engine.remainingClocks_finish (hb : e.busy = false) : e.finish.remainingClocks t =
    (9 + padZeros e.bcnt) * t.tAbsorb + ((e.bcnt + 8) / 64 + 1) * (64 * t.tRound + t.tFf) + t.tLatch := by
  obtain ⟨hs, hq, -⟩ := (Engine.busy_eq_false_iff e).1 hb
  rw [Engine.remainingClocks, Engine.finish_blocksLeft hb]
  simp [hs, hq, Seq.clocksLeft, paddingEntries, padBytes_length]

end clocks

/-- Settles O36: an accepted FINAL keeps the invariant, so its latency is the clocks left after it; its blocks are one
where the padding fits the block in progress, else two. -/
theorem finalLatency : Obligations.FinalLatency := by
  unfold Obligations.FinalLatency
  intro t e hinv hb hp
  have hle : e.bcnt ≤ 63 := hinv.bcnt_le ((Engine.busy_eq_false_iff e).1 hb).1
  have hinv' : (e.execute .final).Inv := hinv.execute (rejection_of_active hb hp _)
  have hlatency : (e.execute .final).latency t =
      (9 + padZeros e.bcnt) * t.tAbsorb + ((e.bcnt + 8) / 64 + 1) * (64 * t.tRound + t.tFf) + t.tLatch :=
    (hinv'.latency_eq_remainingClocks t).trans (Engine.remainingClocks_finish t hb)
  have hblocks : (e.bcnt + 8) / 64 + 1 = if e.bcnt ≤ 55 then 1 else 2 := by split <;> omega
  refine ⟨by rw [hlatency, hblocks], fun hz => ?_⟩
  have hpad : 9 + padZeros 0 = 64 := rfl
  rw [hlatency, hz, hpad]
  ring

end Sys2Proof.Machine
end
